-- ==== Sys2Proof/Word.lean ====
section
/-! DEFINITION. The word types of the GA-TOTP block (00_scope.md R9, R12): bit vectors read as unsigned. -/

namespace Sys2Proof

/-- A byte is 8 bits (20_memory.md R60). -/
abbrev Byte := BitVec 8

/-- The words SHA-1 works on (44_hmac_sha1_reference.md R170). -/
abbrev Word32 := BitVec 32

end Sys2Proof
end

