-- ==== Sys2Proof/Config.lean ====
section
/-! DEFINITION. The constants the spec fixes (00_scope.md R7) and what a configuration of the block chooses: the step
size and the function HMAC_SHA1 (R7, R8, D4, D21). The machine's own configuration is in Machine/Operands.lean. -/

namespace Sys2Proof

/-- KEY_MIN, KEY_MAX: the least and the greatest decoded secret length accepted (R7). -/
def keyMin : Nat := 1
def keyMax : Nat := 100

/-- CHALLENGE_LEN and DIGEST_LEN (R7). -/
def challengeLen : Nat := 8
def digestLen : Nat := 20

/-- OFFSET_MASK, SIGN_MASK and MODULUS (R7; C1: the modulus is 1,000,000). -/
def offsetMask : Byte := 0x0F
def signMask : Word32 := 0x7FFFFFFF
def modulus : Nat := 1000000

/-- A configuration: STEP_SIZE in seconds and the primitive HMAC_SHA1, a function of the key bytes and the message bytes
(with their lengths) to exactly 20 bytes (R8; 43_hmac_wrapper.md R162). -/
structure Config where
  stepSize : Nat
  hmacSha1 : List Byte → List Byte → Vector Byte 20

/-- The constraint on STEP_SIZE: 1 <= STEP_SIZE < 2^64 (R7, D4). -/
def Config.wf (c : Config) : Bool := decide (1 ≤ c.stepSize) && decide (c.stepSize < 2 ^ 64)

/-- Configuration time: a step size outside the constraint, 0 among them, is refused (R140, U8). -/
def Config.make (stepSize : Nat) (h : List Byte → List Byte → Vector Byte 20) : Option Config :=
  let c : Config := { stepSize := stepSize, hmacSha1 := h }
  if c.wf then some c else none

end Sys2Proof
end

