-- ==== Sys2Proof/Machine/Bytes.lean ====
section
/-! DEFINITION. Byte order: every multi-byte quantity is big-endian, most significant byte first (20_memory.md R61,
R62; 30_encoding.md R97). -/

namespace Sys2Proof

/-- `be(s)` of R62: `s[0] << 8*(n-1) | s[1] << 8*(n-2) | ... | s[n-1]`, as a number. -/
def be : List Byte → Nat
  | [] => 0
  | b :: bs => b.toNat * 256 ^ bs.length + be bs

/-- The low `8 * n` bits of `v` as `n` bytes, most significant first. -/
def beBytes : Nat → Nat → List Byte
  | 0, _ => []
  | n + 1, v => BitVec.ofNat 8 (v / 256 ^ n) :: beBytes n v

/-- Four bytes as one 32-bit word, each zero-extended before its shift (R170; 45_dynamic_truncation.md R191). -/
def beWord (b0 b1 b2 b3 : Byte) : Word32 :=
  (b0.setWidth 32 <<< 24) ||| (b1.setWidth 32 <<< 16) ||| (b2.setWidth 32 <<< 8) ||| b3.setWidth 32

/-- Byte `i` of a 64-bit word counted from the most significant: `(v >> (8 * (7 - i))) & 0xFF` (R141). -/
def beByte64 (v : BitVec 64) (i : Nat) : Byte :=
  ((v >>> (8 * (7 - i))) &&& 0xFF).setWidth 8

end Sys2Proof
end

