-- ==== Sys2Proof/Syntax.lean ====
section
/-! DEFINITION. The operations of the block: one constructor per row of spec/opcode_table.json (30_encoding.md R90,
R92, R96). -/

namespace Sys2Proof

/-- The two formats (30_encoding.md R90): stage operations and host commands. -/
inductive Format where
  | stage
  | command
  deriving DecidableEq, Repr

/-- The twelve stage codes of format S, then the six host commands of format H with their payloads
(30_encoding.md R92, R96, R97). -/
inductive Instr where
  | idle
  | tdiv
  | tenc
  | kchk
  | hmac
  | offs
  | wasm
  | msk31
  | modr
  | vcmp
  | done
  | fail
  | nop
  /-- LDT: the 64-bit time `t`. -/
  | ldt (t : BitVec 64)
  /-- LDK: the length byte `len` and the key bytes `k[0..len-1]`. -/
  | ldk (len : Byte) (k : List Byte)
  /-- LDC: the 32-bit candidate `c`. -/
  | ldc (c : BitVec 32)
  | go
  | clr
  deriving DecidableEq, Repr

/-- The format of each operation. -/
def Instr.format : Instr → Format
  | .idle | .tdiv | .tenc | .kchk | .hmac | .offs | .wasm | .msk31 | .modr | .vcmp | .done | .fail => .stage
  | .nop | .ldt _ | .ldk _ _ | .ldc _ | .go | .clr => .command

end Sys2Proof
end

