-- ==== Sys2Proof/WellFormed.lean ====
section
/-! DEFINITION. When a term of `Instr` is an operation the formats can carry (30_encoding.md R97, R128): LDK carries
exactly `len` key bytes; every other operand is right by its type. -/

namespace Sys2Proof

def Instr.wf : Instr → Bool
  | .ldk len k => decide (k.length = len.toNat)
  | .idle | .tdiv | .tenc | .kchk | .hmac | .offs | .wasm | .msk31 | .modr | .vcmp | .done | .fail => true
  | .nop | .ldt _ | .ldc _ | .go | .clr => true

end Sys2Proof
end

