-- ==== Sys2Proof/Decode.lean ====
section
/-! DEFINITION. The decoders of format S and format H, total, rejecting by name (30_encoding.md R91 to R99, R102), and
after them the encoders written from the same tables. Neither decoder reads any state (R102). -/

namespace Sys2Proof

/-- Why a word or a stream is no operation. -/
inductive DecodeError where
  /-- Stage codes 12..15 name no operation (R94). -/
  | reservedStage (op : BitVec 4)
  /-- Command bytes 0x06..0xFF: `hc` 6 or 7, or bits 7:3 not zero (R98). -/
  | reservedCommand (b : Byte)
  /-- The stream ends inside the payload of the command `b` (R98). -/
  | truncated (b : Byte)
  /-- There is no command byte at all. -/
  | noCommand
  /-- Bytes follow where one whole command was expected. -/
  | trailingBytes
  deriving DecidableEq, Repr

/-! ## Format S -/

/-- R92, R94: the twelve stage codes; 12..15 are reserved. -/
def decodeStage (op : BitVec 4) : Except DecodeError Instr :=
  match op.toNat with
  | 0 => .ok .idle
  | 1 => .ok .tdiv
  | 2 => .ok .tenc
  | 3 => .ok .kchk
  | 4 => .ok .hmac
  | 5 => .ok .offs
  | 6 => .ok .wasm
  | 7 => .ok .msk31
  | 8 => .ok .modr
  | 9 => .ok .vcmp
  | 10 => .ok .done
  | 11 => .ok .fail
  | _ => .error (.reservedStage op)

/-! ## Format H -/

/-- The first `n` bytes of `bs` as the payload of command `b`, and the bytes after it; refused when the stream ends
inside the payload (R98). -/
def takePayload (b : Byte) (n : Nat) (bs : List Byte) : Except DecodeError (List Byte × List Byte) :=
  if bs.length < n then .error (.truncated b) else .ok (bs.take n, bs.drop n)

/-- LDT's payload (R97): 8 bytes, big-endian. -/
def decodeLdt (b : Byte) (bs : List Byte) : Except DecodeError (Instr × List Byte) :=
  match takePayload b 8 bs with
  | .ok (p, rest) => .ok (.ldt (BitVec.ofNat 64 (be p)), rest)
  | .error e => .error e

/-- LDK's payload (R97): the length byte, then exactly that many key bytes, also when the length is over 100. -/
def decodeLdk (b : Byte) (bs : List Byte) : Except DecodeError (Instr × List Byte) :=
  match bs with
  | [] => .error (.truncated b)
  | len :: bs' =>
    match takePayload b len.toNat bs' with
    | .ok (p, rest) => .ok (.ldk len p, rest)
    | .error e => .error e

/-- LDC's payload (R97): 4 bytes, big-endian. -/
def decodeLdc (b : Byte) (bs : List Byte) : Except DecodeError (Instr × List Byte) :=
  match takePayload b 4 bs with
  | .ok (p, rest) => .ok (.ldc (BitVec.ofNat 32 (be p)), rest)
  | .error e => .error e

/-- The field `zero`, bits 7:3 of the command byte, and the field `hc`, bits 2:0 (R95). -/
def commandZero (b : Byte) : BitVec 5 := b.extractLsb' 3 5
def commandCode (b : Byte) : BitVec 3 := b.extractLsb' 0 3

/-- One command off the front of a host stream, and the stream after it (R95 to R98). -/
def decodeCommand (bs : List Byte) : Except DecodeError (Instr × List Byte) :=
  match bs with
  | [] => .error .noCommand
  | b :: rest =>
    if commandZero b ≠ 0 then .error (.reservedCommand b)
    else
      match (commandCode b).toNat with
      | 0 => .ok (.nop, rest)
      | 1 => decodeLdt b rest
      | 2 => decodeLdk b rest
      | 3 => decodeLdc b rest
      | 4 => .ok (.go, rest)
      | 5 => .ok (.clr, rest)
      | _ => .error (.reservedCommand b)

/-- "refused at byte n" (R102): where the refused command byte stands, and why (log 14). -/
structure StreamRefusal where
  at_ : Nat
  why : DecodeError
  deriving DecidableEq, Repr

/-- The commands of a whole stream, `at_` the index of its first byte. A command is at least one byte, so `fuel` equal to
the stream's length is enough. -/
def decodeStreamFrom : (fuel at_ : Nat) → List Byte → Except StreamRefusal (List Instr)
  | _, _, [] => .ok []
  | 0, at_, _ :: _ => .error { at_ := at_, why := .noCommand }
  | fuel + 1, at_, b :: bs =>
    match decodeCommand (b :: bs) with
    | .error e => .error { at_ := at_, why := e }
    | .ok (i, rest) =>
      match decodeStreamFrom fuel (at_ + ((bs.length + 1) - rest.length)) rest with
      | .ok is => .ok (i :: is)
      | .error e => .error e

/-- R102: a decoder for format H is total on byte strings: a list of commands, or refused at byte n. -/
def decodeStream (bs : List Byte) : Except StreamRefusal (List Instr) := decodeStreamFrom bs.length 0 bs

/-! ## Encoding -/

/-- What an operation is written as: a 4-bit stage code or the bytes of a host command (R90). -/
inductive Encoded where
  | stage (op : BitVec 4)
  | command (bytes : List Byte)
  deriving DecidableEq, Repr

/-- The words of an operation, from the opcode maps R92 and R96 and the payload layout R97. -/
def encode : Instr → Encoded
  | .idle => .stage 0
  | .tdiv => .stage 1
  | .tenc => .stage 2
  | .kchk => .stage 3
  | .hmac => .stage 4
  | .offs => .stage 5
  | .wasm => .stage 6
  | .msk31 => .stage 7
  | .modr => .stage 8
  | .vcmp => .stage 9
  | .done => .stage 10
  | .fail => .stage 11
  | .nop => .command [0x00]
  | .ldt t => .command (0x01 :: beBytes 8 t.toNat)
  | .ldk len k => .command (0x02 :: len :: k)
  | .ldc c => .command (0x03 :: beBytes 4 c.toNat)
  | .go => .command [0x04]
  | .clr => .command [0x05]

/-- The bytes of a host command; a stage operation sends none. -/
def commandBytes (i : Instr) : List Byte :=
  match encode i with
  | .stage _ => []
  | .command bs => bs

/-- The bytes of a list of host commands, in order. -/
def encodeStream : List Instr → List Byte
  | [] => []
  | i :: is => commandBytes i ++ encodeStream is

/-- The operation an encoding stands for: a stage code, or the bytes of exactly one command. -/
def decode : Encoded → Except DecodeError Instr
  | .stage op => decodeStage op
  | .command bs =>
    match decodeCommand bs with
    | .ok (i, []) => .ok i
    | .ok (_, _ :: _) => .error .trailingBytes
    | .error e => .error e

/-! ## Table words (the host's probe; log 7) -/

/-- The bytes of a table word, its least significant byte first, then zeros up to the longest command (257 bytes). -/
def tableBytes (nbits w : Nat) : List Byte :=
  (List.range ((nbits + 7) / 8)).map (fun k => BitVec.ofNat 8 (w / 256 ^ k)) ++ List.replicate 257 0

/-- Which format a table word is read in. A row of fewer than 8 bits is a stage code, a row of whole bytes a host command;
a byte that is no command byte and fits 4 bits is the stage code of that number, since the format S rows of the table have
4 bits (DESIGN CHOICE, log 7). -/
def tableWordIsCommand (nbits w : Nat) : Bool :=
  decide (8 ≤ nbits) && !(decide (nbits = 8) && decide (6 ≤ w) && decide (w < 16))

/-- The bytes of the table word's command: the word's own bytes and the zeros its payload needs. Where the word holds no
command, its own bytes with the zeros. -/
def commandWord (nbits w : Nat) : List Byte :=
  match decodeCommand (tableBytes nbits w) with
  | .ok (i, _) => commandBytes i
  | .error _ => tableBytes nbits w

/-- The operation the decoders read from a table word. -/
def decodeTableWord (nbits w : Nat) : Option Instr :=
  if tableWordIsCommand nbits w then
    match decodeCommand (tableBytes nbits w) with
    | .ok (i, _) => some i
    | .error _ => none
  else if w < 16 then
    match decodeStage (BitVec.ofNat 4 w) with
    | .ok i => some i
    | .error _ => none
  else none

end Sys2Proof
end

