-- ==== Sys2Proof/Machine/State.lean ====
section
/-! DEFINITION. The state of one block: the fourteen items of 10_state.md R20, and the two lists that say what the agents
around it do next (00_scope.md R11). Plain data. -/

namespace Sys2Proof.Machine

/-- The three address spaces (20_memory.md R60). -/
inductive Space where
  | key
  | ch
  | dig
  deriving DecidableEq, Repr

/-- Their sizes in bytes (R60). -/
def Space.size : Space → Nat
  | .key => 100
  | .ch => 8
  | .dig => 20

/-- A byte buffer: its written bytes as (index, byte) pairs, indexes strictly rising. An index that is not listed has no
value (`⊥`, 00_scope.md R14; log 1). -/
abbrev Memory := List Host.Cell

/-- The data registers that can hold no value (10_state.md R39). -/
inductive Reg where
  | time
  | klen
  | cand
  | ctr
  | off
  | win
  | th
  | code
  deriving DecidableEq, Repr

/-- Who moves next (R11, R69, U6), with the events and observations that are not host commands (log 2). -/
inductive Turn where
  /-- The sequencer performs the operation STAGE names. -/
  | sequencer
  /-- The host issues its next command. -/
  | host
  /-- WAIT: the host issues nothing until busy = 0; while it waits only the sequencer steps (30_encoding.md R101). -/
  | wait
  /-- RD: the host observes the outputs; no state changes (R101, R127). -/
  | observe
  /-- The host samples code_out by itself, which has a value only while done = 1 (R37). -/
  | sampleCode
  /-- The reset event (70_reset_and_hazards.md R270). -/
  | reset
  deriving DecidableEq, Repr

/-- The architectural state (R20) and the agents' pending inputs. `none` in a data register is `⊥`, the reset value R39
gives it and the content GO tests for (R124). -/
structure State where
  /-- STAGE, the program counter (R21). -/
  stage : BitVec 4
  /-- CAUSE (R25). -/
  cause : BitVec 2
  /-- MATCH (R24): true is 1, Accept. -/
  matchFlag : Bool
  /-- TIME (R26). -/
  time : Option (BitVec 64)
  /-- KLEN (R27). -/
  klen : Option Byte
  /-- KEY[0..99] (R28). -/
  key : Memory
  /-- CAND (R29). -/
  cand : Option (BitVec 32)
  /-- CTR (R30). -/
  ctr : Option (BitVec 64)
  /-- CH[0..7] (R31). -/
  ch : Memory
  /-- DIG[0..19] (R32). -/
  dig : Memory
  /-- OFF (R33). -/
  off : Option (BitVec 4)
  /-- WIN (R34). -/
  win : Option (BitVec 32)
  /-- TH (R35). -/
  th : Option (BitVec 31)
  /-- CODE (R36). -/
  code : Option (BitVec 20)
  /-- The command bytes the host has sent and the block has not consumed (R90; log 3). -/
  hostIn : List Byte
  /-- Whose turn it is, first turn first (log 2). -/
  turns : List Turn
  deriving DecidableEq, Repr

/-- Why the machine stops. None of these is the block's exception, which is a next state (60_exceptions.md R232). All are
safe: no next state is claimed. -/
inductive Fault where
  /-- An operation reads a register that has no value (R14, U1); raised by the stage operations' reads. Safe. -/
  | unwrittenRegister (r : Reg)
  /-- An operation reads a buffer byte that has no value (R14, U1); raised by `memRead`. Safe. -/
  | unwrittenByte (sp : Space) (index : Nat)
  /-- An access that is not inside its buffer, which R62 and R63 leave undefined; raised by `memRead` and `memWrite`
  (log 11). Safe. -/
  | outOfRange (sp : Space) (index count : Nat)
  /-- The sequencer's turn with STAGE in 12..15: stuck (R94, U3; log 10); raised by the sequencer's fetch. Safe. -/
  | reservedStage (op : BitVec 4)
  deriving DecidableEq, Repr

/-- What has no meaning. All are safe: no next state is claimed. -/
inductive Refusal where
  /-- An instruction with no meaning in this model yet; raised by `exec` only (none is left). Safe. -/
  | notModelled (mnemonic : String)
  /-- GO in IDLE before TIME, KLEN and CAND are all loaded (R124, U2); raised by GO. Safe. -/
  | goBeforeLoad
  /-- The host's stream holds no command at this byte (R98, U4); raised by the host's turn. Safe. -/
  | badCommand (why : DecodeError)
  /-- code_out sampled while done = 0 (R37, U5); raised by the turn `sampleCode`. Safe. -/
  | codeNotDone
  deriving DecidableEq, Repr

/-- The outcome of one step of this machine. -/
abbrev Result := Host.Outcome State Fault Refusal

/-- The state after reset (R39), with nothing sent by the host and no turn scheduled (log 16). -/
def State.reset : State where
  stage := 0
  cause := 0
  matchFlag := false
  time := none
  klen := none
  key := []
  cand := none
  ctr := none
  ch := []
  dig := []
  off := none
  win := none
  th := none
  code := none
  hostIn := []
  turns := []

end Sys2Proof.Machine
end

