-- ==== Sys2Proof/Machine/Ops.lean ====
section
/-! DEFINITION. The named operations over registers and buffers, taking the block's one exception, leaving it, and
reset. -/

namespace Sys2Proof.Machine

/-! ## Writing one item (00_scope.md R13: `REG <- v`) -/

def State.setStage (s : State) (v : BitVec 4) : State := { s with stage := v }
def State.setCause (s : State) (v : BitVec 2) : State := { s with cause := v }
def State.setMatch (s : State) (v : Bool) : State := { s with matchFlag := v }
def State.setTime (s : State) (v : Option (BitVec 64)) : State := { s with time := v }
def State.setKlen (s : State) (v : Option Byte) : State := { s with klen := v }
def State.setKey (s : State) (v : Memory) : State := { s with key := v }
def State.setCand (s : State) (v : Option (BitVec 32)) : State := { s with cand := v }
def State.setCtr (s : State) (v : Option (BitVec 64)) : State := { s with ctr := v }
def State.setCh (s : State) (v : Memory) : State := { s with ch := v }
def State.setDig (s : State) (v : Memory) : State := { s with dig := v }
def State.setOff (s : State) (v : Option (BitVec 4)) : State := { s with off := v }
def State.setWin (s : State) (v : Option (BitVec 32)) : State := { s with win := v }
def State.setTh (s : State) (v : Option (BitVec 31)) : State := { s with th := v }
def State.setCode (s : State) (v : Option (BitVec 20)) : State := { s with code := v }
def State.setHostIn (s : State) (v : List Byte) : State := { s with hostIn := v }
def State.setTurns (s : State) (v : List Turn) : State := { s with turns := v }

/-! ## Byte buffers (20_memory.md R60 to R63, R66) -/

/-- What an index that no entry lists reads as: no value (R14, R28, R39). -/
def Memory.unlisted : Option Byte := none

/-- `BUF[a]`. -/
def Memory.read : Memory → Nat → Option Byte
  | [], _ => Memory.unlisted
  | (x, b) :: m, a => if x = a then some b else Memory.read m a

/-- `BUF[a] <- b`, keeping the indexes strictly rising. -/
def Memory.write : Memory → Nat → Byte → Memory
  | [], a, b => [(a, b)]
  | (x, c) :: m, a, b =>
    if a < x then (a, b) :: (x, c) :: m
    else if a = x then (a, b) :: m
    else (x, c) :: Memory.write m a b

/-- The bytes of `bs` at `a, a+1, ...`, lowest index first (R63). -/
def Memory.writeBytes : Memory → Nat → List Byte → Memory
  | m, _, [] => m
  | m, a, b :: bs => Memory.writeBytes (Memory.write m a b) (a + 1) bs

/-- The canonical form, from index `lo` on: indexes strictly rising and below `size`. An entry always holds a byte, so
none equals what an unlisted index reads as. -/
def Memory.wfFrom (size : Nat) : Nat → Memory → Bool
  | _, [] => true
  | lo, (x, _) :: m => decide (lo ≤ x) && decide (x < size) && Memory.wfFrom size (x + 1) m

/-- The canonical form of a buffer of `size` bytes. -/
def Memory.wf (size : Nat) (m : Memory) : Bool := Memory.wfFrom size 0 m

/-- `BUF[a..a+n-1]`, lowest index first, or the first index of the range that has no value. -/
def Memory.readBytes (m : Memory) : Nat → Nat → Except Nat (List Byte)
  | _, 0 => .ok []
  | a, n + 1 =>
    match m.read a with
    | none => .error a
    | some b =>
      match Memory.readBytes m (a + 1) n with
      | .ok bs => .ok (b :: bs)
      | .error i => .error i

/-- The buffer of a space. -/
def State.buffer (s : State) : Space → Memory
  | .key => s.key
  | .ch => s.ch
  | .dig => s.dig

/-- The state with the buffer of one space replaced. -/
def State.setBuffer (s : State) (sp : Space) (m : Memory) : State :=
  match sp with
  | .key => s.setKey m
  | .ch => s.setCh m
  | .dig => s.setDig m

/-- One byte of one space. -/
def State.readByte (s : State) (sp : Space) (a : Nat) : Option Byte := (s.buffer sp).read a

/-- `MemRead(BUF, a, n)` (R62): defined only inside the buffer, and only where every byte has a value (R14). -/
def State.memRead (s : State) (sp : Space) (a n : Nat) : Except Fault (List Byte) :=
  if a + n ≤ sp.size then
    match (s.buffer sp).readBytes a n with
    | .ok bs => .ok bs
    | .error i => .error (.unwrittenByte sp i)
  else .error (.outOfRange sp a n)

/-- `MemWrite(BUF, a, n, bs)` with `n` the length of `bs` (R63): defined only inside the buffer. -/
def State.memWrite (s : State) (sp : Space) (a : Nat) (bs : List Byte) : Except Fault State :=
  if a + bs.length ≤ sp.size then .ok (s.setBuffer sp ((s.buffer sp).writeBytes a bs))
  else .error (.outOfRange sp a bs.length)

/-- Every byte of a space back to no value (`for i: BUF[i] <- ⊥`). -/
def State.memErase (s : State) (sp : Space) : State := s.setBuffer sp []

/-! ## Reading -/

/-- A register read. Of a register that holds the spec's bottom it is a fault, as the spec itself says: "a model should make
a read of `⊥` a fault" (00_scope.md R14; 92_eei_decisions.md D8, "a model faults on a read of `⊥`";
93_implementation_defined.md U1, treatment `fault`). Log 1. -/
def readReg {α : Type} (r : Reg) (v : Option α) : Except Fault α :=
  match v with
  | some x => .ok x
  | none => .error (.unwrittenRegister r)

/-- Go on with what was read, or stop with the read's fault. -/
def onRead {α : Type} (r : Except Fault α) (k : α → Result) : Result :=
  match r with
  | .ok x => k x
  | .error f => .fault f

/-! ## The exception and the ways out of it -/

/-- `raise InvalidSecretLength` (60_exceptions.md R232): CAUSE <- 1, MATCH <- 0, STAGE <- 11, and nothing else. No pc or
status is saved and there is no handler address inside the block. -/
def raiseInvalidSecretLength (s : State) : State := ((s.setCause 1).setMatch false).setStage 11

/-- Every item of the block as after reset (10_state.md R39): what CLR does when accepted (40_host_commands.md R125),
which is the return from the exception (60_exceptions.md R236), and what the reset event does from any state
(70_reset_and_hazards.md R270). What the host has sent and the schedule are not the block's (log 9). -/
def clearBlock (s : State) : State :=
  { State.reset with hostIn := s.hostIn, turns := s.turns }

end Sys2Proof.Machine
end

