-- ==== Sys2Proof/Machine/Sha1.lean ====
section
/-! DEFINITION. The standard function HMAC_SHA1 (44_hmac_sha1_reference.md), the default instantiation of the block's
parameter (D21). The spec marks the whole of it as general knowledge, not in its source; log 6. -/

namespace Sys2Proof.Sha1

/-- `ROTL(x, n)` for `0 < n < 32` (R170). -/
def rotl (x : Word32) (n : Nat) : Word32 := (x <<< n) ||| (x >>> (32 - n))

/-- The least number of zero bytes that brings `L + 1 + z` to 56 modulo 64 (R171). -/
def zeroCount (L : Nat) : Nat := (119 - L % 64) % 64

/-- The padded message (R171). -/
def pad (m : List Byte) : List Byte :=
  m ++ (0x80 : Byte) :: (List.replicate (zeroCount m.length) 0 ++ beBytes 8 (8 * m.length))

/-- Bytes as big-endian words (R170). Fewer than four bytes at the end are dropped: a block is 64 bytes. -/
def words : List Byte → List Word32
  | b0 :: b1 :: b2 :: b3 :: bs => beWord b0 b1 b2 b3 :: words bs
  | _ => []

/-- `n` more words of the schedule on top of `w`, the words so far with the LAST one first (R173): with `W[t-1]` at place
0, `W[t-3]`, `W[t-8]`, `W[t-14]`, `W[t-16]` stand at 2, 7, 13 and 15. -/
def extend : Nat → List Word32 → List Word32
  | 0, w => w
  | n + 1, w =>
    extend n (rotl (w.getD 2 0 ^^^ w.getD 7 0 ^^^ w.getD 13 0 ^^^ w.getD 15 0) 1 :: w)

/-- The message schedule `W[0..79]` of a 64-byte block (R173). -/
def schedule (block : List Byte) : List Word32 := (extend 64 (words block).reverse).reverse

/-- The five chaining words, and the working variables a to e (R172, R174). -/
structure Chain where
  a : Word32
  b : Word32
  c : Word32
  d : Word32
  e : Word32
  deriving DecidableEq, Repr

/-- The initial chaining value (R172). -/
def initial : Chain := { a := 0x67452301, b := 0xEFCDAB89, c := 0x98BADCFE, d := 0x10325476, e := 0xC3D2E1F0 }

/-- The round function and its constant for round `t` (R174). -/
def roundF (t : Nat) (b c d : Word32) : Word32 :=
  if t ≤ 19 then (b &&& c) ||| (~~~b &&& d)
  else if t ≤ 39 then b ^^^ c ^^^ d
  else if t ≤ 59 then (b &&& c) ||| (b &&& d) ||| (c &&& d)
  else b ^^^ c ^^^ d

def roundK (t : Nat) : Word32 :=
  if t ≤ 19 then 0x5A827999 else if t ≤ 39 then 0x6ED9EBA1 else if t ≤ 59 then 0x8F1BBCDC else 0xCA62C1D6

/-- One round (R174). -/
def round (t : Nat) (w : Word32) (v : Chain) : Chain :=
  { a := rotl v.a 5 + roundF t v.b v.c v.d + v.e + roundK t + w
    b := v.a
    c := rotl v.b 30
    d := v.c
    e := v.d }

/-- The rounds from `t` on, one for each word (R174). -/
def rounds : Nat → List Word32 → Chain → Chain
  | _, [], v => v
  | t, w :: ws, v => rounds (t + 1) ws (round t w v)

/-- One block's compression (R174). -/
def compress (h : Chain) (block : List Byte) : Chain :=
  let v := rounds 0 (schedule block) h
  { a := h.a + v.a, b := h.b + v.b, c := h.c + v.c, d := h.d + v.d, e := h.e + v.e }

/-- The first `n` 64-byte blocks of `m`, in order (R171, R174). -/
def blocks : Nat → Chain → List Byte → Chain
  | 0, h, _ => h
  | n + 1, h, m => blocks n (compress h (m.take 64)) (m.drop 64)

/-- Byte `i` (0 first) of a word, most significant first. -/
def wordByte (w : Word32) (i : Nat) : Byte := (w >>> (8 * (3 - i))).setWidth 8

/-- The digest: `H0 H1 H2 H3 H4`, each word big-endian (R175). -/
def digest (h : Chain) : Vector Byte 20 :=
  #v[wordByte h.a 0, wordByte h.a 1, wordByte h.a 2, wordByte h.a 3,
     wordByte h.b 0, wordByte h.b 1, wordByte h.b 2, wordByte h.b 3,
     wordByte h.c 0, wordByte h.c 1, wordByte h.c 2, wordByte h.c 3,
     wordByte h.d 0, wordByte h.d 1, wordByte h.d 2, wordByte h.d 3,
     wordByte h.e 0, wordByte h.e 1, wordByte h.e 2, wordByte h.e 3]

/-- `SHA1(M)` (R175). -/
def sha1 (m : List Byte) : Vector Byte 20 := digest (blocks ((pad m).length / 64) initial (pad m))

/-- The key as HMAC uses it before padding: a key of more than 64 bytes is hashed (R177, R178). -/
def shortKey (key : List Byte) : List Byte := if key.length > 64 then (sha1 key).toList else key

/-- `K0`, exactly 64 bytes (R177). -/
def blockKey (key : List Byte) : List Byte :=
  shortKey key ++ List.replicate (64 - (shortKey key).length) 0

/-- `HMAC_SHA1(key, key_len, message, message_len)` (R177); the lengths are those of the lists. Irreducible, so
that no proof about the block opens it by accident; the kernel evaluates it all the same. -/
@[irreducible] def hmacSha1 (key message : List Byte) : Vector Byte 20 :=
  sha1 ((blockKey key).map (· ^^^ 0x5C) ++ (sha1 ((blockKey key).map (· ^^^ 0x36) ++ message)).toList)

end Sys2Proof.Sha1
end

