-- ==== Sys2Proof/Machine/Operands.lean ====
section
/-! DEFINITION. The operands of the operations, all implicit (30_encoding.md R91, R93), what the stage operations compute
from them, and the machine's configuration. -/

namespace Sys2Proof.Machine

/-- This machine's configuration: STEP_SIZE 30 (00_scope.md R7) and the standard HMAC_SHA1 (R8, D21; log 5, log 6). -/
def config : Config := { stepSize := 30, hmacSha1 := Sha1.hmacSha1 }

/-! ## Register operands -/

def State.readTime (s : State) : Except Fault (BitVec 64) := readReg .time s.time
def State.readKlen (s : State) : Except Fault Byte := readReg .klen s.klen
def State.readCand (s : State) : Except Fault (BitVec 32) := readReg .cand s.cand
def State.readCtr (s : State) : Except Fault (BitVec 64) := readReg .ctr s.ctr
def State.readOff (s : State) : Except Fault (BitVec 4) := readReg .off s.off
def State.readWin (s : State) : Except Fault (BitVec 32) := readReg .win s.win
def State.readTh (s : State) : Except Fault (BitVec 31) := readReg .th s.th
def State.readCode (s : State) : Except Fault (BitVec 20) := readReg .code s.code

/-- The three inputs GO needs are all loaded (40_host_commands.md R124). -/
def State.inputsLoaded (s : State) : Bool := s.time.isSome && s.klen.isSome && s.cand.isSome

/-! ## What the stages compute -/

/-- `TIME div STEP_SIZE`, unsigned, rounded toward zero (R140). -/
def timeCounter (c : Config) (t : BitVec 64) : BitVec 64 := BitVec.ofNat 64 (t.toNat / c.stepSize)

/-- The challenge: `CTR` as 8 bytes, most significant first (R141). -/
def challengeBytes (ctr : BitVec 64) : List Byte := (List.range challengeLen).map (beByte64 ctr)

/-- The key length is acceptable: `KEY_MIN <= KLEN <= KEY_MAX` (R150). -/
def keyLengthOk (klen : Byte) : Bool := decide (keyMin ≤ klen.toNat) && decide (klen.toNat ≤ keyMax)

/-- The low four bits of the last digest byte (R190). -/
def offsetOf (b : Byte) : BitVec 4 := (b &&& offsetMask).extractLsb' 0 4

/-- The window, four bytes big-endian (R191). The other arms are never used: MemRead of four bytes answers four. -/
def windowOf : List Byte → BitVec 32
  | [b0, b1, b2, b3] => beWord b0 b1 b2 b3
  | _ => 0

/-- `(WIN & 0x7FFFFFFF)[30:0]` (R192). -/
def maskWindow (w : BitVec 32) : BitVec 31 := (w &&& signMask).extractLsb' 0 31

/-- `(zext_32(TH) mod 1000000)[19:0]` (R193). -/
def reduceCode (th : BitVec 31) : BitVec 20 := BitVec.ofNat 20 ((th.setWidth 32).toNat % modulus)

end Sys2Proof.Machine
end

