-- ==== Sys2Proof/Machine/Flags.lean ====
section
/-! DEFINITION. The flag MATCH, the four status outputs, and what the host can observe (10_state.md R23, R24, R37;
40_host_commands.md R127). -/

namespace Sys2Proof.Machine

/-- The comparison that sets MATCH: all 32 bits of the candidate take part (46_verifier_and_wait_stages.md R210). -/
def codeMatches (code : BitVec 20) (cand : BitVec 32) : Bool := decide (code.setWidth 32 = cand)

/-- The status outputs, functions of STAGE (R23). -/
def State.idle (s : State) : Bool := decide (s.stage.toNat = 0)
def State.busy (s : State) : Bool := decide (1 ≤ s.stage.toNat) && decide (s.stage.toNat ≤ 9)
def State.done (s : State) : Bool := decide (s.stage.toNat = 10)
def State.err (s : State) : Bool := decide (s.stage.toNat = 11)

/-- The stages in which CLR is accepted: IDLE, DONE, FAIL (R120, R125). -/
def State.clearable (s : State) : Bool := s.idle || s.done || s.err

/-- Exactly what the host observes (R37); `codeOut` is `none` where code_out has no value. -/
structure Outputs where
  idle : Bool
  busy : Bool
  done : Bool
  err : Bool
  matchOut : Bool
  causeOut : BitVec 2
  codeOut : Option (BitVec 20)
  deriving DecidableEq, Repr

/-- code_out: CODE when done = 1, no value otherwise (R37). -/
def State.codeOut (s : State) : Option (BitVec 20) := if s.done then s.code else none

/-- RD: all outputs at once (R101, R127). -/
def State.outputs (s : State) : Outputs where
  idle := s.idle
  busy := s.busy
  done := s.done
  err := s.err
  matchOut := s.matchFlag
  causeOut := s.cause
  codeOut := s.codeOut

/-- The verdict (R127). -/
inductive Verdict where
  | accept
  | reject
  deriving DecidableEq, Repr

/-- The verdict the outputs give: Accept when done and match, Reject in every other terminal case, none before the
transaction has ended (R127, R214). -/
def Outputs.verdict (o : Outputs) : Option Verdict :=
  if o.done && o.matchOut then some .accept
  else if o.done || o.err then some .reject
  else none

end Sys2Proof.Machine
end

