-- ==== Sys2Proof/Machine/Hmac.lean ====
section
/-! DEFINITION. The HMAC-SHA1 instantiation wrapper: HMAC (43_hmac_wrapper.md R160). -/

namespace Sys2Proof.Machine

/-- HMAC under a configuration (R160): DIG[0..19] <- HMAC_SHA1(KEY[0..KLEN-1], CH[0..7]); STAGE <- 5. -/
def execHmacWith (c : Config) (s : State) : Result :=
  onRead s.readKlen fun n =>
    onRead (s.memRead .key 0 n.toNat) fun key =>
      onRead (s.memRead .ch 0 challengeLen) fun message =>
        onRead (s.memWrite .dig 0 (c.hmacSha1 key message).toList) fun s' => .next (s'.setStage 5)

/-- HMAC. -/
def execHmac (s : State) : Result := execHmacWith config s

end Sys2Proof.Machine
end

