-- ==== Sys2Proof/Machine/HostCommands.lean ====
section
/-! DEFINITION. The host commands NOP, LDT, LDK, LDC, GO, CLR (40_host_commands.md R120 to R126). A command that is not
accepted is ignored: it is consumed and nothing changes (R120). -/

namespace Sys2Proof.Machine

/-- A load: accepted in IDLE, ignored in every other stage (R120). -/
def whenIdle (s : State) (r : Result) : Result := if s.idle then r else .next s

/-- NOP (R126). -/
def execNop (s : State) : Result := .next s

/-- LDT (R121): TIME <- t. -/
def execLdt (t : BitVec 64) (s : State) : Result := whenIdle s (.next (s.setTime (some t)))

/-- LDK (R122): KLEN <- len; every key byte to no value; then the key bytes when the length is at most 100. A longer key
is consumed and discarded. -/
def execLdk (len : Byte) (k : List Byte) (s : State) : Result :=
  whenIdle s <|
    if len.toNat ≤ keyMax then
      onRead (((s.setKlen (some len)).memErase .key).memWrite .key 0 k) fun s' => .next s'
    else .next ((s.setKlen (some len)).memErase .key)

/-- LDC (R123): CAND <- c. -/
def execLdc (c : BitVec 32) (s : State) : Result := whenIdle s (.next (s.setCand (some c)))

/-- GO (R124): in IDLE with all three inputs loaded, MATCH <- 0, CAUSE <- 0, STAGE <- 1; in IDLE with one not loaded,
refused. -/
def execGo (s : State) : Result :=
  whenIdle s <|
    if s.inputsLoaded then .next (((s.setMatch false).setCause 0).setStage 1)
    else .refused .goBeforeLoad

/-- CLR (R125): in IDLE, DONE and FAIL everything goes back to the reset state; elsewhere ignored. -/
def execClr (s : State) : Result := if s.clearable then .next (clearBlock s) else .next s

end Sys2Proof.Machine
end

