-- ==== Sys2Proof/Machine/KeyCheck.lean ====
section
/-! DEFINITION. The Key Check Unit: KCHK (42_key_check.md R150). -/

namespace Sys2Proof.Machine

/-- KCHK (R150): STAGE <- 4 when 1 <= KLEN <= 100, otherwise it raises InvalidSecretLength. -/
def execKchk (s : State) : Result :=
  onRead s.readKlen fun n =>
    if keyLengthOk n then .next (s.setStage 4) else .next (raiseInvalidSecretLength s)

end Sys2Proof.Machine
end

