-- ==== Sys2Proof/Machine/TimeStep.lean ====
section
/-! DEFINITION. The Time-Step Encoder: TDIV and TENC (41_time_step_encoder.md R140, R141). -/

namespace Sys2Proof.Machine

/-- TDIV under a configuration (R140): CTR <- TIME div STEP_SIZE; STAGE <- 2. -/
def execTdivWith (c : Config) (s : State) : Result :=
  onRead s.readTime fun t => .next ((s.setCtr (some (timeCounter c t))).setStage 2)

/-- TDIV. -/
def execTdiv (s : State) : Result := execTdivWith config s

/-- TENC (R141): CH[0..7] <- CTR, most significant byte first, as one MemWrite; STAGE <- 3. -/
def execTenc (s : State) : Result :=
  onRead s.readCtr fun ctr =>
    onRead (s.memWrite .ch 0 (challengeBytes ctr)) fun s' => .next (s'.setStage 3)

end Sys2Proof.Machine
end

