-- ==== Sys2Proof/Machine/Truncation.lean ====
section
/-! DEFINITION. The dynamic-truncation pipeline: OFFS, WASM, MSK31, MODR (45_dynamic_truncation.md R190 to R193). -/

namespace Sys2Proof.Machine

/-- OFFS (R190): OFF <- DIG[19] & 0x0F; STAGE <- 6. -/
def execOffs (s : State) : Result :=
  onRead (s.memRead .dig 19 1) fun b => .next ((s.setOff (some (offsetOf (b.headD 0)))).setStage 6)

/-- WASM (R191): WIN <- DIG[OFF..OFF+3], big-endian; STAGE <- 7. -/
def execWasm (s : State) : Result :=
  onRead s.readOff fun off =>
    onRead (s.memRead .dig off.toNat 4) fun b => .next ((s.setWin (some (windowOf b))).setStage 7)

/-- MSK31 (R192): TH <- WIN[30:0]; STAGE <- 8. -/
def execMsk31 (s : State) : Result :=
  onRead s.readWin fun w => .next ((s.setTh (some (maskWindow w))).setStage 8)

/-- MODR (R193): CODE <- TH mod 1000000; STAGE <- 9. -/
def execModr (s : State) : Result :=
  onRead s.readTh fun th => .next ((s.setCode (some (reduceCode th))).setStage 9)

end Sys2Proof.Machine
end

