-- ==== Sys2Proof/Machine/Verifier.lean ====
section
/-! DEFINITION. The verifier VCMP and the wait stages IDLE, DONE, FAIL (46_verifier_and_wait_stages.md R210 to R213). -/

namespace Sys2Proof.Machine

/-- VCMP (R210): MATCH <- (zext_32(CODE) == CAND); STAGE <- 10. -/
def execVcmp (s : State) : Result :=
  onRead s.readCode fun code =>
    onRead s.readCand fun cand => .next ((s.setMatch (codeMatches code cand)).setStage 10)

/-- A wait stage: the sequencer has no step, so its turn leaves the state as it is (R211 to R213; log 4). -/
def waitStage (s : State) : Result := .next s

/-- IDLE (R211). -/
def execIdle (s : State) : Result := waitStage s

/-- DONE (R212). -/
def execDone (s : State) : Result := waitStage s

/-- FAIL (R213). -/
def execFail (s : State) : Result := waitStage s

end Sys2Proof.Machine
end

