-- ==== Sys2Proof/Machine/Dispatch.lean ====
section
/-! DEFINITION. The meaning of every operation, one arm a constructor. -/

namespace Sys2Proof.Machine

def exec (i : Instr) (s : State) : Host.Outcome State Fault Refusal :=
  match i with
  -- format S, 30_encoding.md R92
  | .idle => Sys2Proof.Machine.execIdle s
  | .tdiv => Sys2Proof.Machine.execTdiv s
  | .tenc => Sys2Proof.Machine.execTenc s
  | .kchk => Sys2Proof.Machine.execKchk s
  | .hmac => Sys2Proof.Machine.execHmac s
  | .offs => Sys2Proof.Machine.execOffs s
  | .wasm => Sys2Proof.Machine.execWasm s
  | .msk31 => Sys2Proof.Machine.execMsk31 s
  | .modr => Sys2Proof.Machine.execModr s
  | .vcmp => Sys2Proof.Machine.execVcmp s
  | .done => Sys2Proof.Machine.execDone s
  | .fail => Sys2Proof.Machine.execFail s
  -- format H, 30_encoding.md R96
  | .nop => Sys2Proof.Machine.execNop s
  | .ldt t => Sys2Proof.Machine.execLdt t s
  | .ldk len k => Sys2Proof.Machine.execLdk len k s
  | .ldc c => Sys2Proof.Machine.execLdc c s
  | .go => Sys2Proof.Machine.execGo s
  | .clr => Sys2Proof.Machine.execClr s

end Sys2Proof.Machine
end

