-- ==== Sys2Proof/Machine/Agents.lean ====
section
/-! DEFINITION. One step of each agent: the sequencer fetches from STAGE, the host's next command is fetched from the
stream it has sent (00_scope.md R11; 30_encoding.md R90, R102). -/

namespace Sys2Proof.Machine

/-- The sequencer's step: the operation STAGE names (R21, R92; log 15); a reserved code is stuck (R94). -/
def sequencerStep (s : State) : Result :=
  match decodeStage s.stage with
  | .ok i => exec i s
  | .error _ => .fault (.reservedStage s.stage)

/-- The host's step: its next whole command is taken off the stream and performed (R120). With nothing left to send, the
host issues nothing and the state stays (log 3). A stream with no command at its front is refused (R98). -/
def hostStep (s : State) : Result :=
  if s.hostIn = [] then .next s
  else
    match decodeCommand s.hostIn with
    | .ok (i, rest) => exec i (s.setHostIn rest)
    | .error e => .refused (.badCommand e)

/-- The step when no turn is scheduled: a busy block is the sequencer's, and otherwise the host issues its next command
if it has one. This is the host that waits for busy = 0 (R281; log 2). -/
def defaultStep (s : State) : Result :=
  if !s.busy && !s.hostIn.isEmpty then hostStep s else sequencerStep s

/-- The host samples code_out (R37): refused unless done = 1; no state changes. -/
def sampleCodeStep (s : State) : Result :=
  if s.done then .next s else .refused .codeNotDone

/-- What the turn `tn`, already taken off the schedule, does. -/
def turnStep (tn : Turn) (s : State) : Result :=
  match tn with
  | .sequencer => sequencerStep s
  | .host => hostStep s
  | .wait => if s.busy then sequencerStep (s.setTurns (.wait :: s.turns)) else .next s
  | .observe => .next s
  | .sampleCode => sampleCodeStep s
  | .reset => .next (clearBlock s)

end Sys2Proof.Machine
end

