-- ==== Sys2Proof/Machine/Step.lean ====
section
/-! DEFINITION. One step of the machine: the agent whose turn it is moves (20_memory.md R69), and the host's probe. -/

namespace Sys2Proof.Machine

/-- One step. -/
def step (s : State) : Host.Outcome State Fault Refusal :=
  match s.turns with
  | [] => defaultStep s
  | tn :: ts => turnStep tn (s.setTurns ts)

/-- `s` with a table word placed where the very next step fetches: a stage code in STAGE with the sequencer's turn, a
host command at the front of the host's stream with the host's turn (log 7). A word that is no operation leaves its bytes
or its code there all the same, so that the step rejects it. -/
def State.withFetchWord (s : State) (nbits w : Nat) : State :=
  if tableWordIsCommand nbits w then
    (s.setHostIn (commandWord nbits w ++ s.hostIn)).setTurns (.host :: s.turns)
  else (s.setStage (BitVec.ofNat 4 w)).setTurns (.sequencer :: s.turns)

end Sys2Proof.Machine
end

