-- ==== Sys2Proof/Machine/Script.lean ====
section
/-! DEFINITION. Scripts (30_encoding.md R100, R101): what the spec writes host activity as, the bytes and the turns a
script stands for, and the reading of a script's text. Outside the machine's step (D27). -/

namespace Sys2Proof.Machine

/-- A line of a script: a host command, or a pseudo-command, which sends no byte (R101). -/
inductive ScriptItem where
  | command (i : Instr)
  | wait
  | rd
  | totp (k : List Byte) (t : BitVec 64) (c : BitVec 32)
  deriving DecidableEq, Repr

/-- LDK's operands for a key: its length byte and its bytes. -/
def ldkOf (k : List Byte) : Instr := .ldk (BitVec.ofNat 8 k.length) k

/-- TOTP expands to LDK, LDT, LDC, GO, WAIT, RD; every other line stands for itself (R101). -/
def ScriptItem.expand : ScriptItem → List ScriptItem
  | .totp k t c => [.command (ldkOf k), .command (.ldt t), .command (.ldc c), .command .go, .wait, .rd]
  | .command i => [.command i]
  | .wait => [.wait]
  | .rd => [.rd]

/-- The bytes a line without TOTP sends, and the turn it stands for. -/
def ScriptItem.bytes : ScriptItem → List Byte
  | .command i => commandBytes i
  | .wait | .rd | .totp _ _ _ => []

def ScriptItem.turns : ScriptItem → List Turn
  | .command _ => [.host]
  | .wait => [.wait]
  | .rd => [.observe]
  | .totp _ _ _ => []

/-- The bytes of a script and its turns, in order. -/
def scriptBytes (p : List ScriptItem) : List Byte := (p.flatMap ScriptItem.expand).flatMap ScriptItem.bytes
def scriptTurns (p : List ScriptItem) : List Turn := (p.flatMap ScriptItem.expand).flatMap ScriptItem.turns

/-- The host about to run a script, after whatever it had still to do. Turns of the sequencer may be put between: every
such schedule is an execution (U6). -/
def State.withScript (s : State) (p : List ScriptItem) : State :=
  (s.setHostIn (s.hostIn ++ scriptBytes p)).setTurns (s.turns ++ scriptTurns p)

/-! ## Reading a script's text (R100; log 12) -/

/-- A hexadecimal digit's value. -/
def hexDigit (c : Char) : Option Nat :=
  if 48 ≤ c.toNat ∧ c.toNat ≤ 57 then some (c.toNat - 48)
  else if 97 ≤ c.toNat ∧ c.toNat ≤ 102 then some (c.toNat - 87)
  else if 65 ≤ c.toNat ∧ c.toNat ≤ 70 then some (c.toNat - 55)
  else none

/-- The digits of `cs` in base `base`, after the value `acc`. -/
def digitsFrom (base : Nat) : Nat → List Char → Option Nat
  | acc, [] => some acc
  | acc, c :: cs =>
    match hexDigit c with
    | some d => if d < base then digitsFrom base (acc * base + d) cs else none
    | none => none

/-- A decimal numeral, or a hexadecimal one that begins 0x. R100 does not say whether a script's decimal numeral may group
its digits with `_` or `,` as the spec's own notation does (00_scope.md R12): here it may not, `_` makes the line no line of
a script and `,` ends the word (DESIGN CHOICE, log 12). -/
def numeral : List Char → Option Nat
  | [] => none
  | ['0', 'x'] => none
  | '0' :: 'x' :: cs => digitsFrom 16 0 cs
  | cs => digitsFrom 10 0 cs

/-- A string of hexadecimal digits, two a byte. -/
def hexBytes : List Char → Option (List Byte)
  | [] => some []
  | [_] => none
  | c :: d :: cs =>
    match hexDigit c, hexDigit d, hexBytes cs with
    | some x, some y, some bs => some (BitVec.ofNat 8 (16 * x + y) :: bs)
    | _, _, _ => none

/-- The text before and after the first `*`, if there is one. -/
def splitStar : List Char → Option (List Char × List Char)
  | [] => none
  | '*' :: cs => some ([], cs)
  | c :: cs =>
    match splitStar cs with
    | some (a, b) => some (c :: a, b)
    | none => none

/-- A key: two double quotes for the empty key, `m*xx` for m copies of a byte, or hexadecimal digits; at most 255 bytes. -/
def keyText (cs : List Char) : Option (List Byte) :=
  let k : Option (List Byte) :=
    if cs = [Char.ofNat 34, Char.ofNat 34] then some []
    else
      match splitStar cs with
      | some (m, x) =>
        match digitsFrom 10 0 m, hexBytes x with
        | some n, some [b] => if m = [] ∨ 255 < n then none else some (List.replicate n b)
        | _, _ => none
      | none => if cs = [] then none else hexBytes cs
  match k with
  | some bs => if bs.length ≤ 255 then some bs else none
  | none => none

/-- A numeral below `bound`. -/
def numeralBelow (bound : Nat) (cs : List Char) : Option Nat :=
  match numeral cs with
  | some n => if n < bound then some n else none
  | none => none

/-- The words of a line: what stands between blanks, tabs, carriage returns and commas. -/
def wordsFrom : List Char → List Char → List (List Char)
  | cur, [] => if cur = [] then [] else [cur.reverse]
  | cur, c :: cs =>
    if c = ' ' ∨ c = ',' ∨ c.toNat = 9 ∨ c.toNat = 13 then
      if cur = [] then wordsFrom [] cs else cur.reverse :: wordsFrom [] cs
    else wordsFrom (c :: cur) cs

/-- A line without its comment. -/
def dropComment : List Char → List Char
  | [] => []
  | c :: cs => if c = ';' then [] else c :: dropComment cs

/-- One line: a blank or comment line holds no item; `none` is no line of the script syntax. R101 writes `TOTP <hex>` and
R100 gives the shorthand `<m>*<xx>` for LDK alone: that a TOTP line's key may be written with it too is the model's choice
(DESIGN CHOICE, log 12). -/
def parseLine (line : List Char) : Option (List ScriptItem) :=
  match wordsFrom [] (dropComment line) with
  | [] => some []
  | [['N', 'O', 'P']] => some [.command .nop]
  | [['G', 'O']] => some [.command .go]
  | [['C', 'L', 'R']] => some [.command .clr]
  | [['W', 'A', 'I', 'T']] => some [.wait]
  | [['R', 'D']] => some [.rd]
  | [['L', 'D', 'T'], n] => (numeralBelow (2 ^ 64) n).map fun v => [.command (.ldt (BitVec.ofNat 64 v))]
  | [['L', 'D', 'C'], n] => (numeralBelow (2 ^ 32) n).map fun v => [.command (.ldc (BitVec.ofNat 32 v))]
  | [['L', 'D', 'K'], k] => (keyText k).map fun bs => [.command (ldkOf bs)]
  | [['T', 'O', 'T', 'P'], k, t, c] =>
    match keyText k, numeralBelow (2 ^ 64) t, numeralBelow (2 ^ 32) c with
    | some bs, some tv, some cv => some [.totp bs (BitVec.ofNat 64 tv) (BitVec.ofNat 32 cv)]
    | _, _, _ => none
  | _ => none

/-- A whole text, one line after another; `cur` is the line read so far, last character first. -/
def parseFrom : List Char → List Char → Option (List ScriptItem)
  | cur, [] => parseLine cur.reverse
  | cur, c :: cs =>
    if c.toNat = 10 then
      match parseLine cur.reverse, parseFrom [] cs with
      | some a, some b => some (a ++ b)
      | _, _ => none
    else parseFrom (c :: cur) cs

def parseScript (text : List Char) : Option (List ScriptItem) := parseFrom [] text

end Sys2Proof.Machine
end

