-- ==== Sys2Proof/Safety.lean ====
section
/-! DEFINITION. What claims are stated in: runs, when a command is accepted, the function one transaction computes, and the
invariants of the block. -/

namespace Sys2Proof.Machine

/-- `n` steps, stopping at the first fault or refusal. -/
def runSteps : Nat → State → Result
  | 0, s => .next s
  | n + 1, s =>
    match step s with
    | .next s' => runSteps n s'
    | .fault f => .fault f
    | .refused r => .refused r

/-- When a host command acts (40_host_commands.md R120): NOP always; the loads in IDLE; GO in IDLE with every input loaded;
CLR in IDLE, DONE and FAIL. A stage operation is no host command. -/
def accepted (i : Instr) (s : State) : Bool :=
  match i with
  | .nop => true
  | .ldt _ | .ldk _ _ | .ldc _ => s.idle
  | .go => s.idle && s.inputsLoaded
  | .clr => s.clearable
  | .idle | .tdiv | .tenc | .kchk | .hmac | .offs | .wasm | .msk31 | .modr | .vcmp | .done | .fail => false

/-- Equal input registers and equal key bytes. -/
def SameInputs (s t : State) : Prop :=
  t.time = s.time ∧ t.klen = s.klen ∧ t.cand = s.cand ∧ ∀ a, t.readByte .key a = s.readByte .key a

/-- The host's stream and the schedule are as before. -/
def SameAgents (s t : State) : Prop := t.hostIn = s.hostIn ∧ t.turns = s.turns

/-- Every byte of every buffer reads as before. -/
def SameBytes (s t : State) : Prop := ∀ sp a, t.readByte sp a = s.readByte sp a

/-- All fourteen items of R20 are as before. -/
def SameBlock (s t : State) : Prop :=
  t.stage = s.stage ∧ t.cause = s.cause ∧ t.matchFlag = s.matchFlag ∧ t.time = s.time ∧ t.klen = s.klen ∧ t.key = s.key ∧
  t.cand = s.cand ∧ t.ctr = s.ctr ∧ t.ch = s.ch ∧ t.dig = s.dig ∧ t.off = s.off ∧ t.win = s.win ∧ t.th = s.th ∧
  t.code = s.code

/-! ## Who writes and reads what (the last two columns of 10_state.md R20) -/

/-- The fourteen items of R20. -/
inductive Item where
  | stage | cause | matchFlag | time | klen | key | cand | ctr | ch | dig | off | win | th | code
  deriving DecidableEq, Repr

/-- Two states agree on an item; on a buffer, byte by byte. -/
def SameItem (s t : State) : Item → Prop
  | .stage => t.stage = s.stage
  | .cause => t.cause = s.cause
  | .matchFlag => t.matchFlag = s.matchFlag
  | .time => t.time = s.time
  | .klen => t.klen = s.klen
  | .key => ∀ a < 100, t.readByte .key a = s.readByte .key a
  | .cand => t.cand = s.cand
  | .ctr => t.ctr = s.ctr
  | .ch => ∀ a < 8, t.readByte .ch a = s.readByte .ch a
  | .dig => ∀ a < 20, t.readByte .dig a = s.readByte .dig a
  | .off => t.off = s.off
  | .win => t.win = s.win
  | .th => t.th = s.th
  | .code => t.code = s.code

/-- The items each operation may write: R20, "written by", but that KCHK's list holds MATCH too, which R20 does not list for
it and 42_key_check.md R150 and 60_exceptions.md R232 write when KCHK raises (log 17). -/
def writtenItems : Instr → List Item
  | .idle | .done | .fail | .nop => []
  | .tdiv => [.ctr, .stage]
  | .tenc => [.ch, .stage]
  | .kchk => [.stage, .cause, .matchFlag]
  | .hmac => [.dig, .stage]
  | .offs => [.off, .stage]
  | .wasm => [.win, .stage]
  | .msk31 => [.th, .stage]
  | .modr => [.code, .stage]
  | .vcmp => [.matchFlag, .stage]
  | .ldt _ => [.time]
  | .ldk _ _ => [.klen, .key]
  | .ldc _ => [.cand]
  | .go => [.stage, .cause, .matchFlag]
  | .clr => [.stage, .cause, .matchFlag, .time, .klen, .key, .cand, .ctr, .ch, .dig, .off, .win, .th, .code]

/-- The items each stage operation reads (R20, "read by"). A host command reads STAGE, and GO whether the inputs are
loaded (R120, R124). -/
def readItems : Instr → List Item
  | .tdiv => [.time]
  | .tenc => [.ctr]
  | .kchk => [.klen]
  | .hmac => [.klen, .key, .ch]
  | .offs => [.dig]
  | .wasm => [.dig, .off]
  | .msk31 => [.win]
  | .modr => [.th]
  | .vcmp => [.code, .cand]
  | .idle | .done | .fail | .nop => []
  | .ldt _ | .ldk _ _ | .ldc _ | .clr => [.stage]
  | .go => [.stage, .time, .klen, .cand]

/-! ## The function one transaction computes (00_scope.md R3), written from that rule and not from the stage meanings -/

/-- Dynamic truncation of a digest: the low 31 bits of the big-endian window at the low nibble of byte 19, modulo
1,000,000 (R3; 45_dynamic_truncation.md R194). -/
def truncatedCode (dig : List Byte) : Nat :=
  be ((dig.drop ((dig.getD 19 0).toNat % 16)).take 4) % 2 ^ 31 % 1000000

/-- The code for a key and a time: the digest of the 8-byte big-endian time counter, truncated (R3). -/
def totpCode (c : Config) (key : List Byte) (t : BitVec 64) : Nat :=
  truncatedCode (c.hmacSha1 key (beBytes 8 (t.toNat / c.stepSize))).toList

/-- The key buffer holds exactly the bytes `k` from index 0 on, as LDK leaves it (R122). -/
def HoldsKey (s : State) (k : List Byte) : Prop := ∀ i < k.length, s.readByte .key i = k[i]?

/-! ## Invariants -/

/-- Rule R40 of 10_state.md, line by line. -/
structure StageInvariant (s : State) : Prop where
  /-- `STAGE in 0..11`. -/
  legal : s.stage.toNat ≤ 11
  /-- `STAGE == 0`: the pipeline registers have no value, MATCH and CAUSE are 0. -/
  blank : s.stage.toNat = 0 → s.ctr = none ∧ s.ch = [] ∧ s.dig = [] ∧ s.off = none ∧ s.win = none ∧ s.th = none ∧
    s.code = none ∧ s.matchFlag = false ∧ s.cause = 0
  /-- `STAGE >= 1`: the inputs are loaded, and the key bytes where KLEN is at most 100. -/
  loaded : 1 ≤ s.stage.toNat → s.time.isSome = true ∧ s.klen.isSome = true ∧ s.cand.isSome = true ∧
    ∀ n, s.klen = some n → n.toNat ≤ 100 → ∀ i < n.toNat, (s.readByte .key i).isSome = true
  /-- `STAGE in 2..11`: CTR == TIME div STEP_SIZE. -/
  counter : 2 ≤ s.stage.toNat → ∃ t v, s.time = some t ∧ s.ctr = some v ∧ v.toNat = t.toNat / 30
  /-- `STAGE in 3..11`: CH[i] == (CTR >> (8*(7-i))) & 0xFF. -/
  challenge : 3 ≤ s.stage.toNat → ∃ v, s.ctr = some v ∧ ∀ i < 8, s.readByte .ch i = some (beByte64 v i)
  /-- `STAGE in 4..10`: 1 <= KLEN <= 100. -/
  checked : 4 ≤ s.stage.toNat → s.stage.toNat ≤ 10 → ∃ n, s.klen = some n ∧ 1 ≤ n.toNat ∧ n.toNat ≤ 100
  /-- `STAGE in 5..10`: DIG == HMAC_SHA1(KEY[0..KLEN-1], CH[0..7]). -/
  digest : 5 ≤ s.stage.toNat → s.stage.toNat ≤ 10 → ∃ n key msg, s.klen = some n ∧
    s.memRead .key 0 n.toNat = .ok key ∧ s.memRead .ch 0 8 = .ok msg ∧
    s.memRead .dig 0 20 = .ok (config.hmacSha1 key msg).toList
  /-- `STAGE in 6..10`: OFF == DIG[19] & 0x0F. -/
  offset : 6 ≤ s.stage.toNat → s.stage.toNat ≤ 10 → ∃ b o, s.readByte .dig 19 = some b ∧ s.off = some o ∧
    o.toNat = b.toNat % 16
  /-- `STAGE in 7..10`: WIN is the window at OFF, most significant byte first. -/
  window : 7 ≤ s.stage.toNat → s.stage.toNat ≤ 10 → ∃ o bs w, s.off = some o ∧ s.memRead .dig o.toNat 4 = .ok bs ∧
    s.win = some w ∧ w.toNat = be bs
  /-- `STAGE in 8..10`: TH == WIN[30:0]. -/
  masked : 8 ≤ s.stage.toNat → s.stage.toNat ≤ 10 → ∃ w h, s.win = some w ∧ s.th = some h ∧ h.toNat = w.toNat % 2 ^ 31
  /-- `STAGE in 9..10`: CODE == TH mod 1000000, so CODE <= 999999. -/
  reduced : 9 ≤ s.stage.toNat → s.stage.toNat ≤ 10 → ∃ h c, s.th = some h ∧ s.code = some c ∧
    c.toNat = h.toNat % 1000000 ∧ c.toNat ≤ 999999
  /-- `STAGE == 10`: MATCH is the comparison; CAUSE == 0. -/
  verified : s.stage.toNat = 10 → s.cause = 0 ∧ ∃ c d, s.code = some c ∧ s.cand = some d ∧
    (s.matchFlag = true ↔ c.toNat = d.toNat)
  /-- `STAGE == 11`: CAUSE == 1, MATCH == 0, a bad key length, and no digest, offset, window or code. -/
  failed : s.stage.toNat = 11 → s.cause = 1 ∧ s.matchFlag = false ∧
    (∃ n, s.klen = some n ∧ (n.toNat = 0 ∨ 101 ≤ n.toNat)) ∧
    s.dig = [] ∧ s.off = none ∧ s.win = none ∧ s.th = none ∧ s.code = none
  /-- `STAGE in 1..9`: MATCH == 0, CAUSE == 0. -/
  running : 1 ≤ s.stage.toNat → s.stage.toNat ≤ 9 → s.matchFlag = false ∧ s.cause = 0

/-- The three buffers are in canonical form. -/
def BuffersCanonical (s : State) : Prop :=
  Memory.wf 100 s.key = true ∧ Memory.wf 8 s.ch = true ∧ Memory.wf 20 s.dig = true

/-- The invariant every step keeps: rule R40 with what makes it inductive, namely which key bytes LDK has stored, that a
pipeline register has no value before its stage has run, and canonical buffers. -/
structure BlockInvariant (s : State) : Prop where
  rule : StageInvariant s
  canonical : BuffersCanonical s
  /-- Without a loaded length no key byte has a value. -/
  keyUnloaded : s.klen = none → s.key = []
  /-- With a length of at most 100 exactly the bytes below it have a value, with a greater one none (R122). -/
  keyLoaded : ∀ n, s.klen = some n → ∀ i, (s.readByte .key i).isSome = true ↔ (n.toNat ≤ 100 ∧ i < n.toNat)
  ctrLater : s.stage.toNat < 2 → s.ctr = none
  chLater : s.stage.toNat < 3 → s.ch = []
  digLater : s.stage.toNat < 5 → s.dig = []
  offLater : s.stage.toNat < 6 → s.off = none
  winLater : s.stage.toNat < 7 → s.win = none
  thLater : s.stage.toNat < 8 → s.th = none
  codeLater : s.stage.toNat < 9 → s.code = none

end Sys2Proof.Machine
end

