-- ==== Sys2Proof/Certificates/Slice0/Obligations.lean ====
section
/-! DEFINITION. The statements about the block, each citing the rule of spec/ it formalises. -/

open Sys2Proof Sys2Proof.Machine

/-! ## Encoding -/

/-- 30_encoding.md R92, R96, R97: decoding the words of a well-formed operation gives it back, with every payload. -/
def Obligations.DecodeInvertsEncode : Prop :=
  ∀ i : Instr, i.wf = true → decode (encode i) = .ok i

/-- 30_encoding.md R97, R102: the bytes of any list of well-formed host commands, one after another, decode to that
list. -/
def Obligations.StreamOfCommandsDecodes : Prop :=
  ∀ is : List Instr, (∀ i ∈ is, i.wf = true ∧ i.format = .command) → decodeStream (encodeStream is) = .ok is

/-- 30_encoding.md R92, R96, R97: what the decoders accept is exactly the encoding of what they answer, so that every word
has one meaning. -/
def Obligations.DecodedWordsReencode : Prop :=
  (∀ bs rest i, decodeCommand bs = .ok (i, rest) →
    i.wf = true ∧ i.format = .command ∧ bs = commandBytes i ++ rest) ∧
  (∀ op i, decodeStage op = .ok i → i.wf = true ∧ i.format = .stage ∧ encode i = .stage op)

/-- 30_encoding.md R97: payloads are big-endian, LDK carries exactly `len` key bytes whatever `len` is, and the bytes after
the command are left alone; so the lengths are 1, 9, 2 + len, 5, 1 and 1. -/
def Obligations.PayloadsAreBigEndian : Prop :=
  (∀ (p0 p1 p2 p3 p4 p5 p6 p7 : Byte) (rest : List Byte),
    decodeCommand (0x01 :: p0 :: p1 :: p2 :: p3 :: p4 :: p5 :: p6 :: p7 :: rest) =
      .ok (.ldt (BitVec.ofNat 64 (p0.toNat * 2 ^ 56 + p1.toNat * 2 ^ 48 + p2.toNat * 2 ^ 40 + p3.toNat * 2 ^ 32 +
        p4.toNat * 2 ^ 24 + p5.toNat * 2 ^ 16 + p6.toNat * 2 ^ 8 + p7.toNat)), rest)) ∧
  (∀ (len : Byte) (k rest : List Byte), k.length = len.toNat →
    decodeCommand (0x02 :: len :: (k ++ rest)) = .ok (.ldk len k, rest) ∧
    (commandBytes (.ldk len k)).length = 2 + len.toNat) ∧
  (∀ (p0 p1 p2 p3 : Byte) (rest : List Byte),
    decodeCommand (0x03 :: p0 :: p1 :: p2 :: p3 :: rest) =
      .ok (.ldc (BitVec.ofNat 32 (p0.toNat * 2 ^ 24 + p1.toNat * 2 ^ 16 + p2.toNat * 2 ^ 8 + p3.toNat)), rest)) ∧
  (∀ rest : List Byte, decodeCommand (0x00 :: rest) = .ok (.nop, rest) ∧ decodeCommand (0x04 :: rest) = .ok (.go, rest) ∧
    decodeCommand (0x05 :: rest) = .ok (.clr, rest)) ∧
  (∀ (t : BitVec 64) (c : BitVec 32), (commandBytes (.ldt t)).length = 9 ∧ (commandBytes (.ldc c)).length = 5 ∧
    (commandBytes .nop).length = 1 ∧ (commandBytes .go).length = 1 ∧ (commandBytes .clr).length = 1)

/-- 30_encoding.md R98, R102: after any well-formed commands, a command byte of 6 or more makes the decoder refuse the
stream at that byte, and an end inside a payload makes it refuse the stream; and the host's turn is refused when what
stands at the front of its stream does not decode. That the refusal names the command byte's index, and that the
commands before it still act, is the model's choice (log 14). -/
def Obligations.ReservedBytesAndCutStreamsRefused : Prop :=
  (∀ (is : List Instr) (b : Byte) (rest : List Byte), (∀ i ∈ is, i.wf = true ∧ i.format = .command) → 6 ≤ b.toNat →
    decodeStream (encodeStream is ++ b :: rest) =
      .error { at_ := (encodeStream is).length, why := .reservedCommand b }) ∧
  (∀ (is : List Instr) (i : Instr) (n : Nat), (∀ j ∈ is, j.wf = true ∧ j.format = .command) → i.wf = true →
    i.format = .command → 0 < n → n < (commandBytes i).length →
    ∃ r, decodeStream (encodeStream is ++ (commandBytes i).take n) = .error r) ∧
  (∀ (s : State) (ts : List Turn) (e : DecodeError), s.turns = .host :: ts → s.hostIn ≠ [] →
    decodeCommand s.hostIn = .error e → step s = .refused (.badCommand e))

/-- Words written out from 30_encoding.md R92, R96 and R100 decode to what they stand for. -/
def Obligations.WrittenOutWordsDecode : Prop :=
  decodeCommand [0x02, 0x0a, 0x48, 0x65, 0x6c, 0x6c, 0x6f, 0x21, 0xde, 0xad, 0xbe, 0xef] =
    .ok (.ldk 10 [0x48, 0x65, 0x6c, 0x6c, 0x6f, 0x21, 0xde, 0xad, 0xbe, 0xef], []) ∧
  decodeCommand [0x01, 0x00, 0x00, 0x00, 0x00, 0x00, 0x00, 0x00, 0x3b] = .ok (.ldt 59, []) ∧
  decodeCommand [0x03, 0x00, 0x04, 0x61, 0x6a] = .ok (.ldc 287082, []) ∧
  decodeCommand [0x04] = .ok (.go, []) ∧ decodeStage 0b0110 = .ok .wasm ∧ decodeStage 0b1001 = .ok .vcmp

/-- 30_encoding.md R92, R102: the format S decoder is total on 4-bit values: 0..11 give the twelve rows, in the order of
the map, and 12..15 are reserved. -/
def Obligations.StageDecoderIsTotal : Prop :=
  (∀ op : BitVec 4, 12 ≤ op.toNat → decodeStage op = .error (.reservedStage op)) ∧
  (∀ op : BitVec 4, op.toNat ≤ 11 → ∃ i, decodeStage op = .ok i ∧
    [Instr.idle, .tdiv, .tenc, .kchk, .hmac, .offs, .wasm, .msk31, .modr, .vcmp, .done, .fail][op.toNat]? = some i)

/-! ## Steps -/

/-- 00_scope.md R11, 20_memory.md R69: a step runs the decoded operation of the agent whose turn it is. The schedule and
its default are the model's (log 2, log 3). -/
def Obligations.StepRunsDecodedInstruction : Prop :=
  (∀ (s : State) (ts : List Turn) (i : Instr), s.turns = .sequencer :: ts → decodeStage s.stage = .ok i →
    step s = exec i (s.setTurns ts)) ∧
  (∀ (s : State) (ts : List Turn) (i : Instr) (rest : List Byte), s.turns = .host :: ts →
    decodeCommand s.hostIn = .ok (i, rest) → step s = exec i ((s.setTurns ts).setHostIn rest)) ∧
  (∀ (s : State) (i : Instr), s.turns = [] → s.busy = true → decodeStage s.stage = .ok i → step s = exec i s) ∧
  (∀ (s : State) (i : Instr) (rest : List Byte), s.turns = [] → s.busy = false →
    decodeCommand s.hostIn = .ok (i, rest) → step s = exec i (s.setHostIn rest)) ∧
  (∀ (s : State) (i : Instr), s.turns = [] → s.busy = false → s.hostIn = [] → decodeStage s.stage = .ok i →
    step s = exec i s)

/-- 30_encoding.md R101, 40_host_commands.md R127, 10_state.md R37: while the host waits only the sequencer steps, the wait
ends when busy = 0, observing changes nothing, and code_out sampled while done = 0 is refused. -/
def Obligations.WaitAndObservationTurns : Prop :=
  (∀ (s : State) (ts : List Turn) (i : Instr), s.turns = .wait :: ts → s.busy = true → decodeStage s.stage = .ok i →
    step s = exec i s) ∧
  (∀ (s : State) (ts : List Turn), s.turns = .wait :: ts → s.busy = false → step s = .next (s.setTurns ts)) ∧
  (∀ (s : State) (ts : List Turn), s.turns = .observe :: ts → step s = .next (s.setTurns ts)) ∧
  (∀ (s : State) (ts : List Turn), s.turns = .sampleCode :: ts →
    (s.stage = 10 → step s = .next (s.setTurns ts)) ∧ (s.stage ≠ 10 → step s = .refused .codeNotDone))

/-- 30_encoding.md R94: with STAGE in 12..15 the sequencer has no step (stuck), no well-formed host command changes
anything, and reset leaves it; and no step leads there from a legal stage. That the sequencer's turn there is a fault
by name, and a host command is consumed without effect, is read from the spec by inference (log 10). -/
def Obligations.ReservedStageIsStuck : Prop :=
  (∀ s : State, 12 ≤ s.stage.toNat →
    sequencerStep s = .fault (.reservedStage s.stage) ∧
    (∀ i : Instr, i.wf = true → i.format = .command → exec i s = .next s) ∧
    (∀ ts, s.turns = .reset :: ts → ∃ u, step s = .next u ∧ u.stage = 0)) ∧
  (∀ s u : State, s.stage.toNat ≤ 11 → step s = .next u → u.stage.toNat ≤ 11)

/-- 70_reset_and_hazards.md R270: from any state the reset event leads to exactly the reset state of R39. That what
the host has sent and the schedule, which are not the block's, stay as they are is the model's choice (log 9). -/
def Obligations.ResetEventErasesBlock : Prop :=
  ∀ (s : State) (ts : List Turn), s.turns = .reset :: ts →
    step s = .next ((State.reset.setHostIn s.hostIn).setTurns ts)

/-- 10_state.md R39: the value of every item after reset, the outputs there, and that an accepted CLR produces this
same state of the block. That CLR leaves what the host has sent and the schedule is the model's choice (log 9). -/
def Obligations.ResetStateValues : Prop :=
  State.reset.stage = 0 ∧ State.reset.cause = 0 ∧ State.reset.matchFlag = false ∧ State.reset.time = none ∧
  State.reset.klen = none ∧ (∀ i, State.reset.readByte .key i = none) ∧ State.reset.cand = none ∧
  State.reset.ctr = none ∧ (∀ i, State.reset.readByte .ch i = none) ∧ (∀ i, State.reset.readByte .dig i = none) ∧
  State.reset.off = none ∧ State.reset.win = none ∧ State.reset.th = none ∧ State.reset.code = none ∧
  State.reset.outputs = { idle := true, busy := false, done := false, err := false, matchOut := false, causeOut := 0,
                          codeOut := none } ∧
  (∀ s : State, s.stage = 0 ∨ s.stage = 10 ∨ s.stage = 11 →
    exec .clr s = .next ((State.reset.setHostIn s.hostIn).setTurns s.turns))

/-! ## The operations -/

/-- 46_verifier_and_wait_stages.md R211, R212, R213: in a wait stage the sequencer changes nothing. That its turn is a step
that leaves the state as it is, is the model's way to say that it has no step (log 4). -/
def Obligations.WaitStagesHold : Prop :=
  ∀ s : State, exec .idle s = .next s ∧ exec .done s = .next s ∧ exec .fail s = .next s

/-- 40_host_commands.md R126: NOP is accepted in every stage and changes nothing. -/
def Obligations.NopChangesNothing : Prop :=
  (∀ s : State, exec .nop s = .next s) ∧ encode .nop = .command [0x00]

/-- 40_host_commands.md R121: LDT in IDLE writes TIME, every value of t, and nothing else; elsewhere it is ignored. -/
def Obligations.LdtLoadsTime : Prop :=
  ∀ (s : State) (t : BitVec 64),
    (s.stage = 0 → exec (.ldt t) s = .next (s.setTime (some t))) ∧ (s.stage ≠ 0 → exec (.ldt t) s = .next s) ∧
    decode (.command (0x01 :: beBytes 8 t.toNat)) = .ok (.ldt t)

/-- 40_host_commands.md R122: LDK in IDLE writes KLEN, takes every key byte away and stores the key when its length is at
most 100, nothing when it is more; nothing else changes, and elsewhere it is ignored. -/
def Obligations.LdkLoadsKey : Prop :=
  ∀ (s : State) (len : Byte) (k : List Byte), k.length = len.toNat →
    (s.stage = 0 → ∃ u, exec (.ldk len k) s = .next u ∧ u.klen = some len ∧
      (∀ i, u.readByte .key i = if len.toNat ≤ 100 then k[i]? else none) ∧
      u = (s.setKlen u.klen).setKey u.key) ∧
    (s.stage ≠ 0 → exec (.ldk len k) s = .next s) ∧
    decode (.command (0x02 :: len :: k)) = .ok (.ldk len k)

/-- 40_host_commands.md R123: LDC in IDLE writes CAND, every value of c, and nothing else; elsewhere it is ignored. -/
def Obligations.LdcLoadsCandidate : Prop :=
  ∀ (s : State) (c : BitVec 32),
    (s.stage = 0 → exec (.ldc c) s = .next (s.setCand (some c))) ∧ (s.stage ≠ 0 → exec (.ldc c) s = .next s) ∧
    decode (.command (0x03 :: beBytes 4 c.toNat)) = .ok (.ldc c)

/-- 40_host_commands.md R124: GO in IDLE with TIME, KLEN and CAND loaded starts the transaction; with one of them without
a value it is refused; outside IDLE it is ignored. -/
def Obligations.GoStartsTransaction : Prop :=
  (∀ (s : State) (t : BitVec 64) (n : Byte) (c : BitVec 32), s.stage = 0 → s.time = some t → s.klen = some n →
    s.cand = some c → exec .go s = .next (((s.setMatch false).setCause 0).setStage 1)) ∧
  (∀ s : State, s.stage = 0 → (s.time = none ∨ s.klen = none ∨ s.cand = none) →
    exec .go s = .refused .goBeforeLoad) ∧
  (∀ s : State, s.stage ≠ 0 → exec .go s = .next s) ∧ encode .go = .command [0x04]

/-- 40_host_commands.md R125: CLR in IDLE, DONE and FAIL takes the value of every data register and buffer byte away
and writes MATCH, CAUSE and STAGE 0; in every other stage it is ignored. That CLR leaves what the host has sent and
the schedule (the last conjunct of the first clause) is the model's choice (log 9). -/
def Obligations.ClrErasesBlock : Prop :=
  (∀ s : State, s.stage = 0 ∨ s.stage = 10 ∨ s.stage = 11 → ∃ u, exec .clr s = .next u ∧
    u.time = none ∧ u.klen = none ∧ u.cand = none ∧ u.ctr = none ∧ u.off = none ∧ u.win = none ∧ u.th = none ∧
    u.code = none ∧ (∀ sp i, u.readByte sp i = none) ∧ u.matchFlag = false ∧ u.cause = 0 ∧ u.stage = 0 ∧
    u = (State.reset.setHostIn s.hostIn).setTurns s.turns) ∧
  (∀ s : State, s.stage ≠ 0 → s.stage ≠ 10 → s.stage ≠ 11 → exec .clr s = .next s) ∧ encode .clr = .command [0x05]

/-- 41_time_step_encoder.md R140: TDIV writes CTR with the quotient of TIME by 30 and STAGE with 2, and nothing else; a
configuration with step size 0 is refused. -/
def Obligations.TdivDividesTime : Prop :=
  (∀ (s : State) (t : BitVec 64), s.time = some t →
    exec .tdiv s = .next ((s.setCtr (some (t / 30))).setStage 2)) ∧
  (∀ (c : Config) (s : State) (t : BitVec 64), c.wf = true → s.time = some t →
    execTdivWith c s = .next ((s.setCtr (some (t / BitVec.ofNat 64 c.stepSize))).setStage 2)) ∧
  (∀ h, Config.make 0 h = none) ∧ encode .tdiv = .stage 1

/-- 41_time_step_encoder.md R141: TENC writes CH[i] with bits 8*(7-i)+7 to 8*(7-i) of CTR and STAGE with 3, and nothing
else. -/
def Obligations.TencSerialisesCounter : Prop :=
  (∀ (s : State) (v : BitVec 64), s.ctr = some v → ∃ u, exec .tenc s = .next u ∧ u = (s.setCh u.ch).setStage 3 ∧
    (∀ i < 8, u.readByte .ch i = some (v.extractLsb' (8 * (7 - i)) 8)) ∧
    (∀ i, 8 ≤ i → u.readByte .ch i = s.readByte .ch i)) ∧
  encode .tenc = .stage 2

/-- 42_key_check.md R150: KCHK passes exactly the lengths 1 to 100, and raises InvalidSecretLength on 0 and 101 to 255. -/
def Obligations.KchkChecksLength : Prop :=
  (∀ (s : State) (n : Byte), s.klen = some n →
    (1 ≤ n.toNat → n.toNat ≤ 100 → exec .kchk s = .next (s.setStage 4)) ∧
    ((n.toNat = 0 ∨ 101 ≤ n.toNat) → exec .kchk s = .next (((s.setCause 1).setMatch false).setStage 11))) ∧
  encode .kchk = .stage 3

/-- 43_hmac_wrapper.md R160: HMAC writes DIG with the primitive's digest of the KLEN key bytes and the 8 challenge bytes,
first byte first, and STAGE with 5, and nothing else; for any primitive, and for the machine's. -/
def Obligations.HmacLatchesDigest : Prop :=
  (∀ (c : Config) (s : State) (n : Byte) (key msg : List Byte), s.klen = some n → n.toNat ≤ 100 →
    key.length = n.toNat → (∀ i < n.toNat, s.readByte .key i = key[i]?) →
    msg.length = 8 → (∀ i < 8, s.readByte .ch i = msg[i]?) →
    ∃ u, execHmacWith c s = .next u ∧ u = (s.setDig u.dig).setStage 5 ∧
      (∀ i < 20, u.readByte .dig i = (c.hmacSha1 key msg).toList[i]?) ∧
      (∀ i, 20 ≤ i → u.readByte .dig i = s.readByte .dig i)) ∧
  (∀ (s : State) (n : Byte) (key msg : List Byte), s.klen = some n → n.toNat ≤ 100 →
    key.length = n.toNat → (∀ i < n.toNat, s.readByte .key i = key[i]?) →
    msg.length = 8 → (∀ i < 8, s.readByte .ch i = msg[i]?) →
    ∃ u, exec .hmac s = .next u ∧ u = (s.setDig u.dig).setStage 5 ∧
      (∀ i < 20, u.readByte .dig i = (config.hmacSha1 key msg).toList[i]?) ∧
      (∀ i, 20 ≤ i → u.readByte .dig i = s.readByte .dig i)) ∧
  encode .hmac = .stage 4

/-- 45_dynamic_truncation.md R190: OFFS writes OFF with the low four bits of DIG[19] and STAGE with 6, and nothing else. -/
def Obligations.OffsSelectsLowNibble : Prop :=
  (∀ (s : State) (b : Byte), s.readByte .dig 19 = some b →
    exec .offs s = .next ((s.setOff (some (b.extractLsb' 0 4))).setStage 6)) ∧
  encode .offs = .stage 5

/-- 45_dynamic_truncation.md R191: WASM writes WIN with DIG[OFF..OFF+3], the first byte most significant, and STAGE with 7,
and nothing else, at every offset. -/
def Obligations.WasmAssemblesWindow : Prop :=
  (∀ (s : State) (o : BitVec 4) (b0 b1 b2 b3 : Byte), s.off = some o → s.readByte .dig o.toNat = some b0 →
    s.readByte .dig (o.toNat + 1) = some b1 → s.readByte .dig (o.toNat + 2) = some b2 →
    s.readByte .dig (o.toNat + 3) = some b3 → ∃ w : BitVec 32,
    exec .wasm s = .next ((s.setWin (some w)).setStage 7) ∧
    w.toNat = b0.toNat * 2 ^ 24 + b1.toNat * 2 ^ 16 + b2.toNat * 2 ^ 8 + b3.toNat) ∧
  encode .wasm = .stage 6

/-- 45_dynamic_truncation.md R192: MSK31 writes TH with bits 30 to 0 of WIN and STAGE with 8, and nothing else. -/
def Obligations.Msk31ClearsTopBit : Prop :=
  (∀ (s : State) (w : BitVec 32), s.win = some w →
    exec .msk31 s = .next ((s.setTh (some (w.setWidth 31))).setStage 8)) ∧
  encode .msk31 = .stage 7

/-- 45_dynamic_truncation.md R193: MODR writes CODE with the remainder of TH by 1,000,000, which fits 20 bits, and STAGE
with 9, and nothing else. -/
def Obligations.ModrReducesModulo : Prop :=
  (∀ (s : State) (h : BitVec 31), s.th = some h → ∃ c : BitVec 20,
    exec .modr s = .next ((s.setCode (some c)).setStage 9) ∧ c.toNat = h.toNat % 1000000 ∧ c.toNat ≤ 999999) ∧
  encode .modr = .stage 8

/-- 46_verifier_and_wait_stages.md R210: VCMP writes MATCH with the equality of CODE and all 32 bits of CAND and STAGE with
10, and nothing else. -/
def Obligations.VcmpComparesAllBits : Prop :=
  (∀ (s : State) (c : BitVec 20) (d : BitVec 32), s.code = some c → s.cand = some d →
    exec .vcmp s = .next ((s.setMatch (decide (c.toNat = d.toNat))).setStage 10)) ∧
  encode .vcmp = .stage 9

/-- 60_exceptions.md R232: taking InvalidSecretLength writes CAUSE, MATCH and STAGE and nothing else, precisely: the
results of TDIV and TENC stand, and HMAC, OFFS, WASM, MSK31, MODR have written nothing. -/
def Obligations.ExceptionEntryIsPrecise : Prop :=
  ∀ (s : State) (n : Byte), BlockInvariant s → s.stage = 3 → s.klen = some n → (n.toNat = 0 ∨ 101 ≤ n.toNat) →
    ∃ u, exec .kchk s = .next u ∧ u = ((s.setCause 1).setMatch false).setStage 11 ∧
      u.ctr.isSome = true ∧ (∀ i < 8, (u.readByte .ch i).isSome = true) ∧ (∀ i, u.readByte .dig i = none) ∧
      u.off = none ∧ u.win = none ∧ u.th = none ∧ u.code = none

/-- 40_host_commands.md R120: a well-formed host command that is accepted completes; one that is not is ignored, and GO in
IDLE with an input not loaded is refused. -/
def Obligations.AcceptanceByStage : Prop :=
  ∀ (i : Instr) (s : State), i.wf = true → i.format = .command →
    (accepted i s = true → ∃ u, exec i s = .next u) ∧
    (accepted i s = false → ¬(i = .go ∧ s.stage = 0) → exec i s = .next s) ∧
    (accepted i s = false → i = .go → s.stage = 0 → exec i s = .refused .goBeforeLoad)

/-- 00_scope.md R14, 92_eei_decisions.md D8, 93_implementation_defined.md U1: a stage operation that would read a register or
byte with no value faults, and names one that has none; a clause for each operation and each item it reads (R20). How the
spec's bottom is held is log 1; which of several missing operands is named first is the model's choice (log 8). -/
def Obligations.UnwrittenReadsFault : Prop :=
  ∀ s : State,
    (s.time = none → exec .tdiv s = .fault (.unwrittenRegister .time)) ∧
    (s.ctr = none → exec .tenc s = .fault (.unwrittenRegister .ctr)) ∧
    (s.klen = none → exec .kchk s = .fault (.unwrittenRegister .klen)) ∧
    (s.klen = none → exec .hmac s = .fault (.unwrittenRegister .klen)) ∧
    (∀ n i, s.klen = some n → n.toNat ≤ 100 → i < n.toNat → s.readByte .key i = none →
      ∃ j, j < n.toNat ∧ s.readByte .key j = none ∧ exec .hmac s = .fault (.unwrittenByte .key j)) ∧
    (∀ n i, s.klen = some n → n.toNat ≤ 100 → (∀ a < n.toNat, (s.readByte .key a).isSome = true) → i < 8 →
      s.readByte .ch i = none →
      ∃ j, j < 8 ∧ s.readByte .ch j = none ∧ exec .hmac s = .fault (.unwrittenByte .ch j)) ∧
    (s.readByte .dig 19 = none → exec .offs s = .fault (.unwrittenByte .dig 19)) ∧
    (s.off = none → exec .wasm s = .fault (.unwrittenRegister .off)) ∧
    (∀ o i, s.off = some o → i < 4 → s.readByte .dig (o.toNat + i) = none →
      ∃ j, o.toNat ≤ j ∧ j < o.toNat + 4 ∧ s.readByte .dig j = none ∧
        exec .wasm s = .fault (.unwrittenByte .dig j)) ∧
    (s.win = none → exec .msk31 s = .fault (.unwrittenRegister .win)) ∧
    (s.th = none → exec .modr s = .fault (.unwrittenRegister .th)) ∧
    (s.code = none → exec .vcmp s = .fault (.unwrittenRegister .code)) ∧
    (∀ c, s.code = some c → s.cand = none → exec .vcmp s = .fault (.unwrittenRegister .cand))

/-! ## Frames -/

/-- 20_memory.md R66: the operations that write no buffer (IDLE, TDIV, KCHK, OFFS, WASM, MSK31, MODR, VCMP, DONE, FAIL, NOP,
LDT, LDC, GO) leave every byte of every buffer as it reads. -/
def Obligations.RegisterOperationsStoreNothing : Prop :=
  ∀ (i : Instr) (s u : State),
    (i = .idle ∨ i = .tdiv ∨ i = .kchk ∨ i = .offs ∨ i = .wasm ∨ i = .msk31 ∨ i = .modr ∨ i = .vcmp ∨ i = .done ∨
      i = .fail ∨ i = .nop ∨ (∃ t, i = .ldt t) ∨ (∃ c, i = .ldc c) ∨ i = .go) →
    exec i s = .next u → SameBytes s u

/-- 10_state.md R20: no stage operation touches an input register or a key byte. R20 does not speak of what the host
has sent and the schedule: that no operation, CLR among them, touches these is the model's choice (log 9). -/
def Obligations.OperationsKeepAgentsAndInputs : Prop :=
  (∀ (i : Instr) (s u : State), exec i s = .next u → SameAgents s u) ∧
  (∀ (i : Instr) (s u : State), i.format = .stage → exec i s = .next u → SameInputs s u)

/-- 10_state.md R20, the column "written by": an operation changes no item it is not listed to write. TDIV: CTR, STAGE;
TENC: CH, STAGE; KCHK: STAGE, CAUSE, MATCH; HMAC: DIG, STAGE; OFFS: OFF, STAGE; WASM: WIN, STAGE; MSK31: TH, STAGE; MODR:
CODE, STAGE; VCMP: MATCH, STAGE; LDT: TIME; LDK: KLEN, KEY; LDC: CAND; GO: STAGE, CAUSE, MATCH; CLR: all; IDLE, DONE, FAIL
and NOP: none. The list departs from R20 in one place: R20 does not list KCHK as a writer of MATCH; that it writes MATCH when
it raises is 42_key_check.md R150 and 60_exceptions.md R232 (log 17). -/
def Obligations.OnlyListedItemsChange : Prop :=
  ∀ (i : Instr) (s u : State) (x : Item), exec i s = .next u → x ∉ writtenItems i → SameItem s u x

/-- 10_state.md R20, the column "read by": a stage operation's results depend only on the items it is listed to read. Two
states that agree on those either both complete, and agree on every item the operation writes, or neither does. KCHK writes
CAUSE and MATCH only when it raises (42_key_check.md R150, 60_exceptions.md R232; log 17), so for KCHK the two states agree on
these before as well. -/
def Obligations.OnlyListedItemsAreRead : Prop :=
  ∀ (i : Instr) (s t u : State), i.format = .stage → (∀ x ∈ readItems i, SameItem s t x) → exec i s = .next u →
    (i = .kchk → t.cause = s.cause ∧ t.matchFlag = s.matchFlag) →
    ∃ v, exec i t = .next v ∧ ∀ x ∈ writtenItems i, SameItem u v x

/-- 20_memory.md R63, R66: the operations that store change no byte but those they store to: TENC the 8 bytes of CH from
index 0, HMAC the 20 bytes of DIG from index 0, LDK bytes of KEY, CLR any. -/
def Obligations.StoringOperationsFrame : Prop :=
  (∀ (s u : State) (sp : Space) (a : Nat), exec .tenc s = .next u → ¬(sp = .ch ∧ a < challengeLen) →
    u.readByte sp a = s.readByte sp a) ∧
  (∀ (s u : State) (sp : Space) (a : Nat), exec .hmac s = .next u → ¬(sp = .dig ∧ a < digestLen) →
    u.readByte sp a = s.readByte sp a) ∧
  (∀ (len : Byte) (k : List Byte) (s u : State) (sp : Space) (a : Nat), exec (.ldk len k) s = .next u → sp ≠ .key →
    u.readByte sp a = s.readByte sp a)

/-! ## Invariants -/

/-- 10_state.md R40, which the spec marks derived, with what makes it inductive (the model's choice): every step, whichever
agent moves, keeps it. -/
def Obligations.StepKeepsInvariant : Prop :=
  ∀ s u : State, BlockInvariant s → step s = .next u → BlockInvariant u

/-- The reset state meets it, whatever the host has sent and whatever the schedule is. -/
def Obligations.ResetMeetsInvariant : Prop :=
  ∀ (bs : List Byte) (ts : List Turn), BlockInvariant ((State.reset.setHostIn bs).setTurns ts)

/-- 10_state.md R40, which the spec marks derived: its lines hold in every state reached from reset, for every stream
the host sends and every schedule. -/
def Obligations.ReachableStatesMeetRuleForty : Prop :=
  ∀ (bs : List Byte) (ts : List Turn) (n : Nat) (u : State),
    runSteps n ((State.reset.setHostIn bs).setTurns ts) = .next u → StageInvariant u

/-- 20_memory.md R60: every step keeps the three buffers in canonical form (indexes strictly rising, inside the buffer),
from every state in which they are. -/
def Obligations.StepKeepsBuffersCanonical : Prop :=
  ∀ s u : State, BuffersCanonical s → step s = .next u → BuffersCanonical u

/-- 60_exceptions.md R238, 00_scope.md R14: no step from a state that meets the invariant faults: no operation reads a
register or byte with no value, none leaves a buffer, and the sequencer is never stuck. -/
def Obligations.NoFaultUnderInvariant : Prop :=
  ∀ (s : State) (f : Fault), BlockInvariant s → step s ≠ .fault f

/-- 70_reset_and_hazards.md R284, 10_state.md R22: while busy the sequencer has a step, to the next stage or, from KCHK, to
FAIL. -/
def Obligations.BusySequencerProgresses : Prop :=
  ∀ s : State, BlockInvariant s → s.busy = true → ∃ u, sequencerStep s = .next u ∧
    (u.stage.toNat = s.stage.toNat + 1 ∨ (s.stage = 3 ∧ u.stage = 11))

/-- 46_verifier_and_wait_stages.md R214, which the spec marks derived: from a busy stage the sequencer reaches DONE in
10 - STAGE steps, or, with a bad key length and STAGE at most 3, FAIL in 4 - STAGE steps; there is a verdict exactly
in those two stages, and it is Accept exactly in DONE with MATCH 1. The run is the default schedule's, `turns = []`,
in which the host does not move while the block is busy: the model's choice (log 2). -/
def Obligations.TransactionEnds : Prop :=
  (∀ (s : State) (n : Byte), BlockInvariant s → s.busy = true → s.turns = [] → s.klen = some n →
    (1 ≤ n.toNat → n.toNat ≤ 100 → ∃ u, runSteps (10 - s.stage.toNat) s = .next u ∧ u.stage = 10) ∧
    ((n.toNat = 0 ∨ 101 ≤ n.toNat) → s.stage.toNat ≤ 3 ∧
      ∃ u, runSteps (4 - s.stage.toNat) s = .next u ∧ u.stage = 11)) ∧
  (∀ s : State, (s.outputs.verdict.isSome = true ↔ s.stage = 10 ∨ s.stage = 11) ∧
    (s.outputs.verdict = some .accept ↔ s.stage = 10 ∧ s.matchFlag = true))

/-! ## Whole transactions -/

/-- 00_scope.md R3, which the spec marks derived: what a transaction computes, from the state GO leaves: with a good
key length DONE with the truncated code of the HMAC of the 8-byte time counter and MATCH its equality with the
candidate; with a bad one FAIL with CAUSE 1, MATCH 0 and no CODE. It is about the default schedule, `turns = []`, in
which the host does not move while the block is busy: the model's choice (log 2). -/
def Obligations.TransactionComputesCode : Prop :=
  ∀ (s : State) (t : BitVec 64) (n : Byte) (d : BitVec 32) (key : List Byte),
    s.stage = 1 → s.turns = [] → s.cause = 0 → s.code = none → s.time = some t → s.klen = some n → s.cand = some d →
    (1 ≤ n.toNat → n.toNat ≤ 100 → key.length = n.toNat → HoldsKey s key →
      ∃ (u : State) (c : BitVec 20), runSteps 9 s = .next u ∧ u.stage = 10 ∧ u.cause = 0 ∧ u.code = some c ∧
        c.toNat = totpCode config key t ∧ (u.matchFlag = true ↔ totpCode config key t = d.toNat)) ∧
    ((n.toNat = 0 ∨ 101 ≤ n.toNat) →
      ∃ u : State, runSteps 3 s = .next u ∧ u.stage = 11 ∧ u.cause = 1 ∧ u.matchFlag = false ∧ u.code = none)

/-- 70_reset_and_hazards.md R286: two transactions with the same key and times in the same 30-second window give the
same code, and with the same candidate the same verdict: no record of accepted codes is kept. It is about the default
schedule, `turns = []`, in which the host does not move while the block is busy: the model's choice (log 2). -/
def Obligations.SameWindowSameCode : Prop :=
  ∀ (s s' : State) (t t' : BitVec 64) (n : Byte) (d d' : BitVec 32) (key : List Byte),
    s.stage = 1 → s.turns = [] → s.time = some t → s.klen = some n → s.cand = some d → HoldsKey s key →
    s'.stage = 1 → s'.turns = [] → s'.time = some t' → s'.klen = some n → s'.cand = some d' → HoldsKey s' key →
    1 ≤ n.toNat → n.toNat ≤ 100 → key.length = n.toNat → t.toNat / 30 = t'.toNat / 30 →
    ∃ (u u' : State) (c : BitVec 20), runSteps 9 s = .next u ∧ runSteps 9 s' = .next u' ∧ u.code = some c ∧
      u'.code = some c ∧ (d' = d → u'.matchFlag = u.matchFlag)

/-- 30_encoding.md R101, and 00_scope.md R3, which the spec marks derived: the pseudo-command TOTP, run from reset with
its WAIT and RD, ends with the outputs R3 gives: DONE with the code and the verdict, or FAIL. That the host and the
sequencer take the turns of `scriptTurns` is the model's choice (log 2). -/
def Obligations.TotpScriptFromReset : Prop :=
  ∀ (k : List Byte) (t : BitVec 64) (d : BitVec 32), k.length ≤ 255 →
    (1 ≤ k.length → k.length ≤ 100 → ∃ (u : State) (c : BitVec 20),
      runSteps 15 (State.reset.withScript [.totp k t d]) = .next u ∧ u.hostIn = [] ∧ u.turns = [] ∧
      u.outputs = { idle := false, busy := false, done := true, err := false,
                    matchOut := decide (totpCode config k t = d.toNat), causeOut := 0, codeOut := some c } ∧
      c.toNat = totpCode config k t) ∧
    (k.length = 0 ∨ 101 ≤ k.length → ∃ u : State,
      runSteps 9 (State.reset.withScript [.totp k t d]) = .next u ∧ u.hostIn = [] ∧ u.turns = [] ∧
      u.outputs = { idle := false, busy := false, done := false, err := true, matchOut := false, causeOut := 1,
                    codeOut := none })

/-- 41_time_step_encoder.md R142, which the spec marks derived: time-step stability, monotonicity, injectivity of TENC
with `be(CH) = CTR`, and the top four bits of CH[0] being 0, of the functions TDIV and TENC apply. -/
def Obligations.EncoderProperties : Prop :=
  (∀ t1 t2 : BitVec 64, t1.toNat / 30 = t2.toNat / 30 →
    challengeBytes (timeCounter config t1) = challengeBytes (timeCounter config t2) ∧
    ∀ key, totpCode config key t1 = totpCode config key t2) ∧
  (∀ t1 t2 : BitVec 64, t1.toNat ≤ t2.toNat → (timeCounter config t1).toNat ≤ (timeCounter config t2).toNat) ∧
  (∀ v w : BitVec 64, challengeBytes v = challengeBytes w → v = w) ∧
  (∀ v : BitVec 64, be (challengeBytes v) = v.toNat) ∧
  (∀ (t : BitVec 64) (b : Byte), (challengeBytes (timeCounter config t))[0]? = some b → b.toNat < 16)

/-- 45_dynamic_truncation.md R194, which the spec marks derived: from stage 5 the pipeline computes in four steps a
code that is a function of the 20 digest bytes alone and at most 999999; the high nibble of DIG[19] and bit 7 of
DIG[OFF] never influence it; and it is the eight-digit code modulo 10^6. The run of the first clause is the default
schedule's, `turns = []`: the model's choice (log 2). -/
def Obligations.TruncationProperties : Prop :=
  (∀ (s : State) (dig : List Byte), s.stage = 5 → s.turns = [] → dig.length = 20 →
    (∀ i < 20, s.readByte .dig i = dig[i]?) →
    ∃ (u : State) (c : BitVec 20), runSteps 4 s = .next u ∧ u.stage = 9 ∧ u.code = some c ∧
      c.toNat = truncatedCode dig ∧ c.toNat ≤ 999999) ∧
  (∀ (d e : List Byte) (o : Nat), d.length = 20 → e.length = 20 → o < 16 → (d.getD 19 0).toNat % 16 = o →
    (e.getD 19 0).toNat % 16 = o → (d.getD o 0).toNat % 128 = (e.getD o 0).toNat % 128 →
    d.getD (o + 1) 0 = e.getD (o + 1) 0 → d.getD (o + 2) 0 = e.getD (o + 2) 0 → d.getD (o + 3) 0 = e.getD (o + 3) 0 →
    truncatedCode d = truncatedCode e) ∧
  (∀ h : BitVec 31, (reduceCode h).toNat = h.toNat % 100000000 % 1000000)

/-- 43_hmac_wrapper.md R162: for any primitive, the digest depends on the key length, the key bytes below it and the
challenge alone: not on the time, the candidate, the other key bytes or an earlier digest. -/
def Obligations.DigestDependsOnKeyAndChallenge : Prop :=
  ∀ (c : Config) (s t u : State) (n : Byte), s.klen = some n → t.klen = some n →
    (∀ i < n.toNat, t.readByte .key i = s.readByte .key i) → (∀ i < 8, t.readByte .ch i = s.readByte .ch i) →
    execHmacWith c s = .next u → ∃ v, execHmacWith c t = .next v ∧
      ∀ i < 20, v.readByte .dig i = u.readByte .dig i ∧ (v.readByte .dig i).isSome = true

/-- 10_state.md R37, 60_exceptions.md R257: the host sees only the status, CAUSE, MATCH and, in DONE, CODE. -/
def Obligations.OutputsRevealOnlyListedItems : Prop :=
  ∀ s t : State, t.stage = s.stage → t.cause = s.cause → t.matchFlag = s.matchFlag →
    (s.stage = 10 → t.code = s.code) → t.outputs = s.outputs

/-- 42_key_check.md R152, which the spec marks derived: a key length that is no length gives a deterministic Reject:
the same outputs, whatever the time, the candidate and the key bytes are. It is about the default schedule, `turns =
[]`, in which the host does not move while the block is busy: the model's choice (log 2). -/
def Obligations.BadKeyLengthRejects : Prop :=
  ∀ (s : State) (t : BitVec 64) (n : Byte), s.stage = 1 → s.turns = [] → s.time = some t → s.klen = some n →
    (n.toNat = 0 ∨ 101 ≤ n.toNat) → ∃ u, runSteps 3 s = .next u ∧ u.outputs.verdict = some .reject ∧
      u.outputs = { idle := false, busy := false, done := false, err := true, matchOut := false, causeOut := 1,
                    codeOut := none }

/-- 10_state.md R23: the four status outputs as functions of STAGE, and exactly one of them 1 whenever STAGE is at most
11. -/
def Obligations.ExactlyOneStatusOutput : Prop :=
  ∀ s : State, (s.idle = true ↔ s.stage = 0) ∧ (s.busy = true ↔ 1 ≤ s.stage.toNat ∧ s.stage.toNat ≤ 9) ∧
    (s.done = true ↔ s.stage = 10) ∧ (s.err = true ↔ s.stage = 11) ∧
    (s.stage.toNat ≤ 11 → [s.idle, s.busy, s.done, s.err].count true = 1)

/-! ## Whole-machine rules -/

/-- 10_state.md R22: STAGE is written only by reset, an accepted GO, a stage operation completing, KCHK raising, and an
accepted CLR, each with the value listed. -/
def Obligations.StageAdvancesOnlyAsListed : Prop :=
  (∀ s u : State, step s = .next u → u.stage ≠ s.stage →
    (u.stage = 0 ∧ ∃ ts, s.turns = .reset :: ts) ∨
    (u.stage = 0 ∧ (s.stage = 10 ∨ s.stage = 11) ∧ ∃ rest, decodeCommand s.hostIn = .ok (.clr, rest)) ∨
    (u.stage = 1 ∧ s.stage = 0 ∧ s.inputsLoaded = true ∧ ∃ rest, decodeCommand s.hostIn = .ok (.go, rest)) ∨
    (u.stage.toNat = s.stage.toNat + 1 ∧ 1 ≤ s.stage.toNat ∧ s.stage.toNat ≤ 9 ∧
      (s.stage = 3 → ∃ n, s.klen = some n ∧ 1 ≤ n.toNat ∧ n.toNat ≤ 100)) ∨
    (u.stage = 11 ∧ s.stage = 3 ∧ ∃ n, s.klen = some n ∧ (n.toNat = 0 ∨ 101 ≤ n.toNat))) ∧
  (∀ s u : State, s.stage.toNat ≤ 11 → step s = .next u → u.stage.toNat ≤ 11)

/-- 60_exceptions.md R230: only KCHK raises, only on a length below 1 or above 100, and CAUSE becomes 1. -/
def Obligations.OnlyKeyCheckRaises : Prop :=
  ∀ s u : State, step s = .next u → u.cause ≠ s.cause → u.cause ≠ 0 →
    u.cause = 1 ∧ s.stage = 3 ∧ u.stage = 11 ∧ ∃ n, s.klen = some n ∧ (n.toNat = 0 ∨ 101 ≤ n.toNat)

/-- 10_state.md R24: MATCH becomes 1 only by VCMP, when the code equals the candidate. -/
def Obligations.OnlyVerifierAccepts : Prop :=
  ∀ s u : State, step s = .next u → s.matchFlag = false → u.matchFlag = true →
    s.stage = 9 ∧ u.stage = 10 ∧ ∃ c d, s.code = some c ∧ s.cand = some d ∧ c.toNat = d.toNat

/-- 20_memory.md R69, 60_exceptions.md R250: no step but reset changes an input while the block is busy. -/
def Obligations.InputsFrozenWhileBusy : Prop :=
  ∀ s u : State, s.busy = true → (∀ ts, s.turns ≠ .reset :: ts) → step s = .next u → SameInputs s u

/-- 46_verifier_and_wait_stages.md R212, R213: in DONE and FAIL every item keeps its value until CLR or reset leads to
IDLE. -/
def Obligations.EndedTransactionHolds : Prop :=
  ∀ s u : State, s.stage = 10 ∨ s.stage = 11 → step s = .next u → u.stage ≠ 0 → SameBlock s u

/-! ## The default instantiation of the primitive -/

/-- 44_hmac_sha1_reference.md R173, general knowledge by the spec's own mark (log 6): the message schedule of a 64-byte
block. -/
def Obligations.MessageScheduleRecurrence : Prop :=
  ∀ block : List Byte, block.length = 64 →
    (Sha1.schedule block).length = 80 ∧
    (∀ t < 16, (Sha1.schedule block).getD t 0 =
      beWord (block.getD (4 * t) 0) (block.getD (4 * t + 1) 0) (block.getD (4 * t + 2) 0) (block.getD (4 * t + 3) 0)) ∧
    (∀ t, 16 ≤ t → t < 80 → (Sha1.schedule block).getD t 0 =
      Sha1.rotl ((Sha1.schedule block).getD (t - 3) 0 ^^^ (Sha1.schedule block).getD (t - 8) 0 ^^^
        (Sha1.schedule block).getD (t - 14) 0 ^^^ (Sha1.schedule block).getD (t - 16) 0) 1)

/-- 44_hmac_sha1_reference.md R171, general knowledge by the spec's own mark (log 6): the padded message: the least
number of zero bytes, the bit length, whole blocks. -/
def Obligations.PaddingIsLeast : Prop :=
  ∀ m : List Byte, ∃ z : Nat,
    Sha1.pad m = m ++ (0x80 : Byte) :: (List.replicate z 0 ++ beBytes 8 (8 * m.length)) ∧
    (m.length + 1 + z) % 64 = 56 ∧ (∀ z', (m.length + 1 + z') % 64 = 56 → z ≤ z') ∧ (Sha1.pad m).length % 64 = 0

/-- 44_hmac_sha1_reference.md R178, general knowledge by the spec's own mark (log 6): a key of at most 64 bytes is used
as it is, a longer one is replaced by its digest, and the padded key has exactly 64 bytes. -/
def Obligations.LongKeysAreHashed : Prop :=
  ∀ k : List Byte, (Sha1.blockKey k).length = 64 ∧
    (k.length ≤ 64 → Sha1.blockKey k = k ++ List.replicate (64 - k.length) 0) ∧
    (64 < k.length → Sha1.blockKey k = (Sha1.sha1 k).toList ++ List.replicate 44 0)
end

