-- ==== Sys2Proof/Laws/Bytes.lean ====
section
/-! SUPPORT. The byte-order helpers: their values and that `be` and `beBytes` undo each other (20_memory.md R62). -/

namespace Sys2Proof

theorem be_lt (bs : List Byte) : be bs < 256 ^ bs.length := by
  induction bs with
  | nil => simp [be]
  | cons b bs ih =>
    have hb := b.isLt
    have h2 : b.toNat * 256 ^ bs.length ≤ 255 * 256 ^ bs.length := Nat.mul_le_mul_right _ (by omega)
    simp only [be, List.length_cons, pow_succ]
    omega

@[simp] theorem beBytes_length (n v : Nat) : (beBytes n v).length = n := by
  induction n generalizing v <;> simp_all [beBytes]

/-- Reading back what was laid out gives the value, cut to its bytes. -/
theorem be_beBytes (n v : Nat) : be (beBytes n v) = v % 256 ^ n := by
  induction n with
  | zero => simp [be, beBytes, Nat.mod_one]
  | succ n ih =>
    have h : v % 256 ^ (n + 1) = v % 256 ^ n + 256 ^ n * (v / 256 ^ n % 256) := Nat.mod_mul
    rw [h]
    simp only [be, beBytes, ih, beBytes_length, BitVec.toNat_ofNat, show (2 : Nat) ^ 8 = 256 from rfl]
    rw [Nat.mul_comm (256 ^ n), Nat.add_comm]

/-- Only the value's low bytes are laid out. -/
theorem beBytes_congr {n v w : Nat} (h : v % 256 ^ n = w % 256 ^ n) : beBytes n v = beBytes n w := by
  induction n generalizing v w with
  | zero => rfl
  | succ n ih =>
    simp only [beBytes, List.cons.injEq]
    constructor
    · apply BitVec.eq_of_toNat_eq
      have hv := Nat.mod_mul_right_div_self v (256 ^ n) 256
      have hw := Nat.mod_mul_right_div_self w (256 ^ n) 256
      rw [BitVec.toNat_ofNat, BitVec.toNat_ofNat, show (2 : Nat) ^ 8 = 256 from rfl, ← hv, ← hw, ← pow_succ, h]
    · apply ih
      rw [← Nat.mod_mod_of_dvd v (pow_dvd_pow 256 (Nat.le_succ n)),
        ← Nat.mod_mod_of_dvd w (pow_dvd_pow 256 (Nat.le_succ n)), Nat.succ_eq_add_one, h]

/-- Laying out the value of some bytes gives the bytes. -/
theorem beBytes_be (bs : List Byte) : beBytes bs.length (be bs) = bs := by
  induction bs with
  | nil => rfl
  | cons b bs ih =>
    have hlt := be_lt bs
    simp only [List.length_cons, beBytes, be]
    congr 1
    · rw [Nat.mul_comm, Nat.mul_add_div (by positivity), Nat.div_eq_of_lt hlt]; simp
    · rw [beBytes_congr (w := be bs) (by rw [Nat.mul_comm, Nat.mul_add_mod]), ih]

theorem byte_shiftLeft_toNat (b : Byte) {n : Nat} (h : n ≤ 24) : (b.setWidth 32 <<< n).toNat = b.toNat * 2 ^ n := by
  have hb := b.isLt
  have hp : 2 ^ n ≤ 2 ^ 24 := Nat.pow_le_pow_right (by omega) h
  have : b.toNat * 2 ^ n < 2 ^ 32 :=
    calc b.toNat * 2 ^ n ≤ 255 * 2 ^ 24 := Nat.mul_le_mul (by omega) hp
      _ < 2 ^ 32 := by norm_num
  rw [BitVec.toNat_shiftLeft, BitVec.toNat_setWidth, Nat.shiftLeft_eq, Nat.mod_eq_of_lt (a := b.toNat) (by omega),
    Nat.mod_eq_of_lt this]

/-- The four shifted bytes occupy disjoint bit ranges (45_dynamic_truncation.md R191). -/
theorem beWord_toNat (b0 b1 b2 b3 : Byte) : (beWord b0 b1 b2 b3).toNat =
    b0.toNat * 2 ^ 24 + b1.toNat * 2 ^ 16 + b2.toNat * 2 ^ 8 + b3.toNat := by
  have h0 := b0.isLt
  have h1 := b1.isLt
  have h2 := b2.isLt
  have h3 := b3.isLt
  have e : ∀ x y n : Nat, y < 2 ^ n → x * 2 ^ n ||| y = x * 2 ^ n + y := fun x y n h => by
    rw [← Nat.shiftLeft_eq, Nat.shiftLeft_add_eq_or_of_lt h]
  rw [beWord, BitVec.toNat_or, BitVec.toNat_or, BitVec.toNat_or, byte_shiftLeft_toNat _ (by omega),
    byte_shiftLeft_toNat _ (by omega), byte_shiftLeft_toNat _ (by omega), BitVec.toNat_setWidth,
    Nat.mod_eq_of_lt (by omega), e _ _ 24 (by omega),
    show b0.toNat * 2 ^ 24 + b1.toNat * 2 ^ 16 = (b0.toNat * 2 ^ 8 + b1.toNat) * 2 ^ 16 by ring, e _ _ 16 (by omega),
    show (b0.toNat * 2 ^ 8 + b1.toNat) * 2 ^ 16 + b2.toNat * 2 ^ 8
      = ((b0.toNat * 2 ^ 8 + b1.toNat) * 2 ^ 8 + b2.toNat) * 2 ^ 8 by ring, e _ _ 8 (by omega)]

theorem beWord_eq_be (b0 b1 b2 b3 : Byte) : (beWord b0 b1 b2 b3).toNat = be [b0, b1, b2, b3] := by
  rw [beWord_toNat]
  simp [be]
  omega

/-- A byte of a 64-bit word as a number. -/
theorem beByte64_eq (v : BitVec 64) (i : Nat) : beByte64 v i = BitVec.ofNat 8 (v.toNat / 256 ^ (7 - i)) := by
  apply BitVec.eq_of_toNat_eq
  have hm : ∀ x : Nat, x &&& 255 = x % 256 := fun x => Nat.and_two_pow_sub_one_eq_mod x 8
  simp only [beByte64, BitVec.toNat_setWidth, BitVec.toNat_and, BitVec.toNat_ushiftRight, BitVec.toNat_ofNat]
  rw [show BitVec.toNat (255 : BitVec 64) = 255 from rfl, hm, Nat.shiftRight_eq_div_pow, pow_mul]
  simp

end Sys2Proof
end

