-- ==== Sys2Proof/Laws/State.lean ====
section
/-! SUPPORT. One lemma per field per update of State, so that no proof unfolds a record update. -/

namespace Sys2Proof.Machine

/-! `setStage` -/

@[simp] theorem State.setStage_stage (s : State) (v : BitVec 4) : (s.setStage v).stage = v := rfl
@[simp] theorem State.setStage_cause (s : State) (v : BitVec 4) : (s.setStage v).cause = s.cause := rfl
@[simp] theorem State.setStage_matchFlag (s : State) (v : BitVec 4) : (s.setStage v).matchFlag = s.matchFlag := rfl
@[simp] theorem State.setStage_time (s : State) (v : BitVec 4) : (s.setStage v).time = s.time := rfl
@[simp] theorem State.setStage_klen (s : State) (v : BitVec 4) : (s.setStage v).klen = s.klen := rfl
@[simp] theorem State.setStage_key (s : State) (v : BitVec 4) : (s.setStage v).key = s.key := rfl
@[simp] theorem State.setStage_cand (s : State) (v : BitVec 4) : (s.setStage v).cand = s.cand := rfl
@[simp] theorem State.setStage_ctr (s : State) (v : BitVec 4) : (s.setStage v).ctr = s.ctr := rfl
@[simp] theorem State.setStage_ch (s : State) (v : BitVec 4) : (s.setStage v).ch = s.ch := rfl
@[simp] theorem State.setStage_dig (s : State) (v : BitVec 4) : (s.setStage v).dig = s.dig := rfl
@[simp] theorem State.setStage_off (s : State) (v : BitVec 4) : (s.setStage v).off = s.off := rfl
@[simp] theorem State.setStage_win (s : State) (v : BitVec 4) : (s.setStage v).win = s.win := rfl
@[simp] theorem State.setStage_th (s : State) (v : BitVec 4) : (s.setStage v).th = s.th := rfl
@[simp] theorem State.setStage_code (s : State) (v : BitVec 4) : (s.setStage v).code = s.code := rfl
@[simp] theorem State.setStage_hostIn (s : State) (v : BitVec 4) : (s.setStage v).hostIn = s.hostIn := rfl
@[simp] theorem State.setStage_turns (s : State) (v : BitVec 4) : (s.setStage v).turns = s.turns := rfl

/-! `setCause` -/

@[simp] theorem State.setCause_stage (s : State) (v : BitVec 2) : (s.setCause v).stage = s.stage := rfl
@[simp] theorem State.setCause_cause (s : State) (v : BitVec 2) : (s.setCause v).cause = v := rfl
@[simp] theorem State.setCause_matchFlag (s : State) (v : BitVec 2) : (s.setCause v).matchFlag = s.matchFlag := rfl
@[simp] theorem State.setCause_time (s : State) (v : BitVec 2) : (s.setCause v).time = s.time := rfl
@[simp] theorem State.setCause_klen (s : State) (v : BitVec 2) : (s.setCause v).klen = s.klen := rfl
@[simp] theorem State.setCause_key (s : State) (v : BitVec 2) : (s.setCause v).key = s.key := rfl
@[simp] theorem State.setCause_cand (s : State) (v : BitVec 2) : (s.setCause v).cand = s.cand := rfl
@[simp] theorem State.setCause_ctr (s : State) (v : BitVec 2) : (s.setCause v).ctr = s.ctr := rfl
@[simp] theorem State.setCause_ch (s : State) (v : BitVec 2) : (s.setCause v).ch = s.ch := rfl
@[simp] theorem State.setCause_dig (s : State) (v : BitVec 2) : (s.setCause v).dig = s.dig := rfl
@[simp] theorem State.setCause_off (s : State) (v : BitVec 2) : (s.setCause v).off = s.off := rfl
@[simp] theorem State.setCause_win (s : State) (v : BitVec 2) : (s.setCause v).win = s.win := rfl
@[simp] theorem State.setCause_th (s : State) (v : BitVec 2) : (s.setCause v).th = s.th := rfl
@[simp] theorem State.setCause_code (s : State) (v : BitVec 2) : (s.setCause v).code = s.code := rfl
@[simp] theorem State.setCause_hostIn (s : State) (v : BitVec 2) : (s.setCause v).hostIn = s.hostIn := rfl
@[simp] theorem State.setCause_turns (s : State) (v : BitVec 2) : (s.setCause v).turns = s.turns := rfl

/-! `setMatch` -/

@[simp] theorem State.setMatch_stage (s : State) (v : Bool) : (s.setMatch v).stage = s.stage := rfl
@[simp] theorem State.setMatch_cause (s : State) (v : Bool) : (s.setMatch v).cause = s.cause := rfl
@[simp] theorem State.setMatch_matchFlag (s : State) (v : Bool) : (s.setMatch v).matchFlag = v := rfl
@[simp] theorem State.setMatch_time (s : State) (v : Bool) : (s.setMatch v).time = s.time := rfl
@[simp] theorem State.setMatch_klen (s : State) (v : Bool) : (s.setMatch v).klen = s.klen := rfl
@[simp] theorem State.setMatch_key (s : State) (v : Bool) : (s.setMatch v).key = s.key := rfl
@[simp] theorem State.setMatch_cand (s : State) (v : Bool) : (s.setMatch v).cand = s.cand := rfl
@[simp] theorem State.setMatch_ctr (s : State) (v : Bool) : (s.setMatch v).ctr = s.ctr := rfl
@[simp] theorem State.setMatch_ch (s : State) (v : Bool) : (s.setMatch v).ch = s.ch := rfl
@[simp] theorem State.setMatch_dig (s : State) (v : Bool) : (s.setMatch v).dig = s.dig := rfl
@[simp] theorem State.setMatch_off (s : State) (v : Bool) : (s.setMatch v).off = s.off := rfl
@[simp] theorem State.setMatch_win (s : State) (v : Bool) : (s.setMatch v).win = s.win := rfl
@[simp] theorem State.setMatch_th (s : State) (v : Bool) : (s.setMatch v).th = s.th := rfl
@[simp] theorem State.setMatch_code (s : State) (v : Bool) : (s.setMatch v).code = s.code := rfl
@[simp] theorem State.setMatch_hostIn (s : State) (v : Bool) : (s.setMatch v).hostIn = s.hostIn := rfl
@[simp] theorem State.setMatch_turns (s : State) (v : Bool) : (s.setMatch v).turns = s.turns := rfl

/-! `setTime` -/

@[simp] theorem State.setTime_stage (s : State) (v : Option (BitVec 64)) : (s.setTime v).stage = s.stage := rfl
@[simp] theorem State.setTime_cause (s : State) (v : Option (BitVec 64)) : (s.setTime v).cause = s.cause := rfl
@[simp] theorem State.setTime_matchFlag (s : State) (v : Option (BitVec 64)) : (s.setTime v).matchFlag = s.matchFlag := rfl
@[simp] theorem State.setTime_time (s : State) (v : Option (BitVec 64)) : (s.setTime v).time = v := rfl
@[simp] theorem State.setTime_klen (s : State) (v : Option (BitVec 64)) : (s.setTime v).klen = s.klen := rfl
@[simp] theorem State.setTime_key (s : State) (v : Option (BitVec 64)) : (s.setTime v).key = s.key := rfl
@[simp] theorem State.setTime_cand (s : State) (v : Option (BitVec 64)) : (s.setTime v).cand = s.cand := rfl
@[simp] theorem State.setTime_ctr (s : State) (v : Option (BitVec 64)) : (s.setTime v).ctr = s.ctr := rfl
@[simp] theorem State.setTime_ch (s : State) (v : Option (BitVec 64)) : (s.setTime v).ch = s.ch := rfl
@[simp] theorem State.setTime_dig (s : State) (v : Option (BitVec 64)) : (s.setTime v).dig = s.dig := rfl
@[simp] theorem State.setTime_off (s : State) (v : Option (BitVec 64)) : (s.setTime v).off = s.off := rfl
@[simp] theorem State.setTime_win (s : State) (v : Option (BitVec 64)) : (s.setTime v).win = s.win := rfl
@[simp] theorem State.setTime_th (s : State) (v : Option (BitVec 64)) : (s.setTime v).th = s.th := rfl
@[simp] theorem State.setTime_code (s : State) (v : Option (BitVec 64)) : (s.setTime v).code = s.code := rfl
@[simp] theorem State.setTime_hostIn (s : State) (v : Option (BitVec 64)) : (s.setTime v).hostIn = s.hostIn := rfl
@[simp] theorem State.setTime_turns (s : State) (v : Option (BitVec 64)) : (s.setTime v).turns = s.turns := rfl

/-! `setKlen` -/

@[simp] theorem State.setKlen_stage (s : State) (v : Option Byte) : (s.setKlen v).stage = s.stage := rfl
@[simp] theorem State.setKlen_cause (s : State) (v : Option Byte) : (s.setKlen v).cause = s.cause := rfl
@[simp] theorem State.setKlen_matchFlag (s : State) (v : Option Byte) : (s.setKlen v).matchFlag = s.matchFlag := rfl
@[simp] theorem State.setKlen_time (s : State) (v : Option Byte) : (s.setKlen v).time = s.time := rfl
@[simp] theorem State.setKlen_klen (s : State) (v : Option Byte) : (s.setKlen v).klen = v := rfl
@[simp] theorem State.setKlen_key (s : State) (v : Option Byte) : (s.setKlen v).key = s.key := rfl
@[simp] theorem State.setKlen_cand (s : State) (v : Option Byte) : (s.setKlen v).cand = s.cand := rfl
@[simp] theorem State.setKlen_ctr (s : State) (v : Option Byte) : (s.setKlen v).ctr = s.ctr := rfl
@[simp] theorem State.setKlen_ch (s : State) (v : Option Byte) : (s.setKlen v).ch = s.ch := rfl
@[simp] theorem State.setKlen_dig (s : State) (v : Option Byte) : (s.setKlen v).dig = s.dig := rfl
@[simp] theorem State.setKlen_off (s : State) (v : Option Byte) : (s.setKlen v).off = s.off := rfl
@[simp] theorem State.setKlen_win (s : State) (v : Option Byte) : (s.setKlen v).win = s.win := rfl
@[simp] theorem State.setKlen_th (s : State) (v : Option Byte) : (s.setKlen v).th = s.th := rfl
@[simp] theorem State.setKlen_code (s : State) (v : Option Byte) : (s.setKlen v).code = s.code := rfl
@[simp] theorem State.setKlen_hostIn (s : State) (v : Option Byte) : (s.setKlen v).hostIn = s.hostIn := rfl
@[simp] theorem State.setKlen_turns (s : State) (v : Option Byte) : (s.setKlen v).turns = s.turns := rfl

/-! `setKey` -/

@[simp] theorem State.setKey_stage (s : State) (v : Memory) : (s.setKey v).stage = s.stage := rfl
@[simp] theorem State.setKey_cause (s : State) (v : Memory) : (s.setKey v).cause = s.cause := rfl
@[simp] theorem State.setKey_matchFlag (s : State) (v : Memory) : (s.setKey v).matchFlag = s.matchFlag := rfl
@[simp] theorem State.setKey_time (s : State) (v : Memory) : (s.setKey v).time = s.time := rfl
@[simp] theorem State.setKey_klen (s : State) (v : Memory) : (s.setKey v).klen = s.klen := rfl
@[simp] theorem State.setKey_key (s : State) (v : Memory) : (s.setKey v).key = v := rfl
@[simp] theorem State.setKey_cand (s : State) (v : Memory) : (s.setKey v).cand = s.cand := rfl
@[simp] theorem State.setKey_ctr (s : State) (v : Memory) : (s.setKey v).ctr = s.ctr := rfl
@[simp] theorem State.setKey_ch (s : State) (v : Memory) : (s.setKey v).ch = s.ch := rfl
@[simp] theorem State.setKey_dig (s : State) (v : Memory) : (s.setKey v).dig = s.dig := rfl
@[simp] theorem State.setKey_off (s : State) (v : Memory) : (s.setKey v).off = s.off := rfl
@[simp] theorem State.setKey_win (s : State) (v : Memory) : (s.setKey v).win = s.win := rfl
@[simp] theorem State.setKey_th (s : State) (v : Memory) : (s.setKey v).th = s.th := rfl
@[simp] theorem State.setKey_code (s : State) (v : Memory) : (s.setKey v).code = s.code := rfl
@[simp] theorem State.setKey_hostIn (s : State) (v : Memory) : (s.setKey v).hostIn = s.hostIn := rfl
@[simp] theorem State.setKey_turns (s : State) (v : Memory) : (s.setKey v).turns = s.turns := rfl

/-! `setCand` -/

@[simp] theorem State.setCand_stage (s : State) (v : Option (BitVec 32)) : (s.setCand v).stage = s.stage := rfl
@[simp] theorem State.setCand_cause (s : State) (v : Option (BitVec 32)) : (s.setCand v).cause = s.cause := rfl
@[simp] theorem State.setCand_matchFlag (s : State) (v : Option (BitVec 32)) : (s.setCand v).matchFlag = s.matchFlag := rfl
@[simp] theorem State.setCand_time (s : State) (v : Option (BitVec 32)) : (s.setCand v).time = s.time := rfl
@[simp] theorem State.setCand_klen (s : State) (v : Option (BitVec 32)) : (s.setCand v).klen = s.klen := rfl
@[simp] theorem State.setCand_key (s : State) (v : Option (BitVec 32)) : (s.setCand v).key = s.key := rfl
@[simp] theorem State.setCand_cand (s : State) (v : Option (BitVec 32)) : (s.setCand v).cand = v := rfl
@[simp] theorem State.setCand_ctr (s : State) (v : Option (BitVec 32)) : (s.setCand v).ctr = s.ctr := rfl
@[simp] theorem State.setCand_ch (s : State) (v : Option (BitVec 32)) : (s.setCand v).ch = s.ch := rfl
@[simp] theorem State.setCand_dig (s : State) (v : Option (BitVec 32)) : (s.setCand v).dig = s.dig := rfl
@[simp] theorem State.setCand_off (s : State) (v : Option (BitVec 32)) : (s.setCand v).off = s.off := rfl
@[simp] theorem State.setCand_win (s : State) (v : Option (BitVec 32)) : (s.setCand v).win = s.win := rfl
@[simp] theorem State.setCand_th (s : State) (v : Option (BitVec 32)) : (s.setCand v).th = s.th := rfl
@[simp] theorem State.setCand_code (s : State) (v : Option (BitVec 32)) : (s.setCand v).code = s.code := rfl
@[simp] theorem State.setCand_hostIn (s : State) (v : Option (BitVec 32)) : (s.setCand v).hostIn = s.hostIn := rfl
@[simp] theorem State.setCand_turns (s : State) (v : Option (BitVec 32)) : (s.setCand v).turns = s.turns := rfl

/-! `setCtr` -/

@[simp] theorem State.setCtr_stage (s : State) (v : Option (BitVec 64)) : (s.setCtr v).stage = s.stage := rfl
@[simp] theorem State.setCtr_cause (s : State) (v : Option (BitVec 64)) : (s.setCtr v).cause = s.cause := rfl
@[simp] theorem State.setCtr_matchFlag (s : State) (v : Option (BitVec 64)) : (s.setCtr v).matchFlag = s.matchFlag := rfl
@[simp] theorem State.setCtr_time (s : State) (v : Option (BitVec 64)) : (s.setCtr v).time = s.time := rfl
@[simp] theorem State.setCtr_klen (s : State) (v : Option (BitVec 64)) : (s.setCtr v).klen = s.klen := rfl
@[simp] theorem State.setCtr_key (s : State) (v : Option (BitVec 64)) : (s.setCtr v).key = s.key := rfl
@[simp] theorem State.setCtr_cand (s : State) (v : Option (BitVec 64)) : (s.setCtr v).cand = s.cand := rfl
@[simp] theorem State.setCtr_ctr (s : State) (v : Option (BitVec 64)) : (s.setCtr v).ctr = v := rfl
@[simp] theorem State.setCtr_ch (s : State) (v : Option (BitVec 64)) : (s.setCtr v).ch = s.ch := rfl
@[simp] theorem State.setCtr_dig (s : State) (v : Option (BitVec 64)) : (s.setCtr v).dig = s.dig := rfl
@[simp] theorem State.setCtr_off (s : State) (v : Option (BitVec 64)) : (s.setCtr v).off = s.off := rfl
@[simp] theorem State.setCtr_win (s : State) (v : Option (BitVec 64)) : (s.setCtr v).win = s.win := rfl
@[simp] theorem State.setCtr_th (s : State) (v : Option (BitVec 64)) : (s.setCtr v).th = s.th := rfl
@[simp] theorem State.setCtr_code (s : State) (v : Option (BitVec 64)) : (s.setCtr v).code = s.code := rfl
@[simp] theorem State.setCtr_hostIn (s : State) (v : Option (BitVec 64)) : (s.setCtr v).hostIn = s.hostIn := rfl
@[simp] theorem State.setCtr_turns (s : State) (v : Option (BitVec 64)) : (s.setCtr v).turns = s.turns := rfl

/-! `setCh` -/

@[simp] theorem State.setCh_stage (s : State) (v : Memory) : (s.setCh v).stage = s.stage := rfl
@[simp] theorem State.setCh_cause (s : State) (v : Memory) : (s.setCh v).cause = s.cause := rfl
@[simp] theorem State.setCh_matchFlag (s : State) (v : Memory) : (s.setCh v).matchFlag = s.matchFlag := rfl
@[simp] theorem State.setCh_time (s : State) (v : Memory) : (s.setCh v).time = s.time := rfl
@[simp] theorem State.setCh_klen (s : State) (v : Memory) : (s.setCh v).klen = s.klen := rfl
@[simp] theorem State.setCh_key (s : State) (v : Memory) : (s.setCh v).key = s.key := rfl
@[simp] theorem State.setCh_cand (s : State) (v : Memory) : (s.setCh v).cand = s.cand := rfl
@[simp] theorem State.setCh_ctr (s : State) (v : Memory) : (s.setCh v).ctr = s.ctr := rfl
@[simp] theorem State.setCh_ch (s : State) (v : Memory) : (s.setCh v).ch = v := rfl
@[simp] theorem State.setCh_dig (s : State) (v : Memory) : (s.setCh v).dig = s.dig := rfl
@[simp] theorem State.setCh_off (s : State) (v : Memory) : (s.setCh v).off = s.off := rfl
@[simp] theorem State.setCh_win (s : State) (v : Memory) : (s.setCh v).win = s.win := rfl
@[simp] theorem State.setCh_th (s : State) (v : Memory) : (s.setCh v).th = s.th := rfl
@[simp] theorem State.setCh_code (s : State) (v : Memory) : (s.setCh v).code = s.code := rfl
@[simp] theorem State.setCh_hostIn (s : State) (v : Memory) : (s.setCh v).hostIn = s.hostIn := rfl
@[simp] theorem State.setCh_turns (s : State) (v : Memory) : (s.setCh v).turns = s.turns := rfl

/-! `setDig` -/

@[simp] theorem State.setDig_stage (s : State) (v : Memory) : (s.setDig v).stage = s.stage := rfl
@[simp] theorem State.setDig_cause (s : State) (v : Memory) : (s.setDig v).cause = s.cause := rfl
@[simp] theorem State.setDig_matchFlag (s : State) (v : Memory) : (s.setDig v).matchFlag = s.matchFlag := rfl
@[simp] theorem State.setDig_time (s : State) (v : Memory) : (s.setDig v).time = s.time := rfl
@[simp] theorem State.setDig_klen (s : State) (v : Memory) : (s.setDig v).klen = s.klen := rfl
@[simp] theorem State.setDig_key (s : State) (v : Memory) : (s.setDig v).key = s.key := rfl
@[simp] theorem State.setDig_cand (s : State) (v : Memory) : (s.setDig v).cand = s.cand := rfl
@[simp] theorem State.setDig_ctr (s : State) (v : Memory) : (s.setDig v).ctr = s.ctr := rfl
@[simp] theorem State.setDig_ch (s : State) (v : Memory) : (s.setDig v).ch = s.ch := rfl
@[simp] theorem State.setDig_dig (s : State) (v : Memory) : (s.setDig v).dig = v := rfl
@[simp] theorem State.setDig_off (s : State) (v : Memory) : (s.setDig v).off = s.off := rfl
@[simp] theorem State.setDig_win (s : State) (v : Memory) : (s.setDig v).win = s.win := rfl
@[simp] theorem State.setDig_th (s : State) (v : Memory) : (s.setDig v).th = s.th := rfl
@[simp] theorem State.setDig_code (s : State) (v : Memory) : (s.setDig v).code = s.code := rfl
@[simp] theorem State.setDig_hostIn (s : State) (v : Memory) : (s.setDig v).hostIn = s.hostIn := rfl
@[simp] theorem State.setDig_turns (s : State) (v : Memory) : (s.setDig v).turns = s.turns := rfl

/-! `setOff` -/

@[simp] theorem State.setOff_stage (s : State) (v : Option (BitVec 4)) : (s.setOff v).stage = s.stage := rfl
@[simp] theorem State.setOff_cause (s : State) (v : Option (BitVec 4)) : (s.setOff v).cause = s.cause := rfl
@[simp] theorem State.setOff_matchFlag (s : State) (v : Option (BitVec 4)) : (s.setOff v).matchFlag = s.matchFlag := rfl
@[simp] theorem State.setOff_time (s : State) (v : Option (BitVec 4)) : (s.setOff v).time = s.time := rfl
@[simp] theorem State.setOff_klen (s : State) (v : Option (BitVec 4)) : (s.setOff v).klen = s.klen := rfl
@[simp] theorem State.setOff_key (s : State) (v : Option (BitVec 4)) : (s.setOff v).key = s.key := rfl
@[simp] theorem State.setOff_cand (s : State) (v : Option (BitVec 4)) : (s.setOff v).cand = s.cand := rfl
@[simp] theorem State.setOff_ctr (s : State) (v : Option (BitVec 4)) : (s.setOff v).ctr = s.ctr := rfl
@[simp] theorem State.setOff_ch (s : State) (v : Option (BitVec 4)) : (s.setOff v).ch = s.ch := rfl
@[simp] theorem State.setOff_dig (s : State) (v : Option (BitVec 4)) : (s.setOff v).dig = s.dig := rfl
@[simp] theorem State.setOff_off (s : State) (v : Option (BitVec 4)) : (s.setOff v).off = v := rfl
@[simp] theorem State.setOff_win (s : State) (v : Option (BitVec 4)) : (s.setOff v).win = s.win := rfl
@[simp] theorem State.setOff_th (s : State) (v : Option (BitVec 4)) : (s.setOff v).th = s.th := rfl
@[simp] theorem State.setOff_code (s : State) (v : Option (BitVec 4)) : (s.setOff v).code = s.code := rfl
@[simp] theorem State.setOff_hostIn (s : State) (v : Option (BitVec 4)) : (s.setOff v).hostIn = s.hostIn := rfl
@[simp] theorem State.setOff_turns (s : State) (v : Option (BitVec 4)) : (s.setOff v).turns = s.turns := rfl

/-! `setWin` -/

@[simp] theorem State.setWin_stage (s : State) (v : Option (BitVec 32)) : (s.setWin v).stage = s.stage := rfl
@[simp] theorem State.setWin_cause (s : State) (v : Option (BitVec 32)) : (s.setWin v).cause = s.cause := rfl
@[simp] theorem State.setWin_matchFlag (s : State) (v : Option (BitVec 32)) : (s.setWin v).matchFlag = s.matchFlag := rfl
@[simp] theorem State.setWin_time (s : State) (v : Option (BitVec 32)) : (s.setWin v).time = s.time := rfl
@[simp] theorem State.setWin_klen (s : State) (v : Option (BitVec 32)) : (s.setWin v).klen = s.klen := rfl
@[simp] theorem State.setWin_key (s : State) (v : Option (BitVec 32)) : (s.setWin v).key = s.key := rfl
@[simp] theorem State.setWin_cand (s : State) (v : Option (BitVec 32)) : (s.setWin v).cand = s.cand := rfl
@[simp] theorem State.setWin_ctr (s : State) (v : Option (BitVec 32)) : (s.setWin v).ctr = s.ctr := rfl
@[simp] theorem State.setWin_ch (s : State) (v : Option (BitVec 32)) : (s.setWin v).ch = s.ch := rfl
@[simp] theorem State.setWin_dig (s : State) (v : Option (BitVec 32)) : (s.setWin v).dig = s.dig := rfl
@[simp] theorem State.setWin_off (s : State) (v : Option (BitVec 32)) : (s.setWin v).off = s.off := rfl
@[simp] theorem State.setWin_win (s : State) (v : Option (BitVec 32)) : (s.setWin v).win = v := rfl
@[simp] theorem State.setWin_th (s : State) (v : Option (BitVec 32)) : (s.setWin v).th = s.th := rfl
@[simp] theorem State.setWin_code (s : State) (v : Option (BitVec 32)) : (s.setWin v).code = s.code := rfl
@[simp] theorem State.setWin_hostIn (s : State) (v : Option (BitVec 32)) : (s.setWin v).hostIn = s.hostIn := rfl
@[simp] theorem State.setWin_turns (s : State) (v : Option (BitVec 32)) : (s.setWin v).turns = s.turns := rfl

/-! `setTh` -/

@[simp] theorem State.setTh_stage (s : State) (v : Option (BitVec 31)) : (s.setTh v).stage = s.stage := rfl
@[simp] theorem State.setTh_cause (s : State) (v : Option (BitVec 31)) : (s.setTh v).cause = s.cause := rfl
@[simp] theorem State.setTh_matchFlag (s : State) (v : Option (BitVec 31)) : (s.setTh v).matchFlag = s.matchFlag := rfl
@[simp] theorem State.setTh_time (s : State) (v : Option (BitVec 31)) : (s.setTh v).time = s.time := rfl
@[simp] theorem State.setTh_klen (s : State) (v : Option (BitVec 31)) : (s.setTh v).klen = s.klen := rfl
@[simp] theorem State.setTh_key (s : State) (v : Option (BitVec 31)) : (s.setTh v).key = s.key := rfl
@[simp] theorem State.setTh_cand (s : State) (v : Option (BitVec 31)) : (s.setTh v).cand = s.cand := rfl
@[simp] theorem State.setTh_ctr (s : State) (v : Option (BitVec 31)) : (s.setTh v).ctr = s.ctr := rfl
@[simp] theorem State.setTh_ch (s : State) (v : Option (BitVec 31)) : (s.setTh v).ch = s.ch := rfl
@[simp] theorem State.setTh_dig (s : State) (v : Option (BitVec 31)) : (s.setTh v).dig = s.dig := rfl
@[simp] theorem State.setTh_off (s : State) (v : Option (BitVec 31)) : (s.setTh v).off = s.off := rfl
@[simp] theorem State.setTh_win (s : State) (v : Option (BitVec 31)) : (s.setTh v).win = s.win := rfl
@[simp] theorem State.setTh_th (s : State) (v : Option (BitVec 31)) : (s.setTh v).th = v := rfl
@[simp] theorem State.setTh_code (s : State) (v : Option (BitVec 31)) : (s.setTh v).code = s.code := rfl
@[simp] theorem State.setTh_hostIn (s : State) (v : Option (BitVec 31)) : (s.setTh v).hostIn = s.hostIn := rfl
@[simp] theorem State.setTh_turns (s : State) (v : Option (BitVec 31)) : (s.setTh v).turns = s.turns := rfl

/-! `setCode` -/

@[simp] theorem State.setCode_stage (s : State) (v : Option (BitVec 20)) : (s.setCode v).stage = s.stage := rfl
@[simp] theorem State.setCode_cause (s : State) (v : Option (BitVec 20)) : (s.setCode v).cause = s.cause := rfl
@[simp] theorem State.setCode_matchFlag (s : State) (v : Option (BitVec 20)) : (s.setCode v).matchFlag = s.matchFlag := rfl
@[simp] theorem State.setCode_time (s : State) (v : Option (BitVec 20)) : (s.setCode v).time = s.time := rfl
@[simp] theorem State.setCode_klen (s : State) (v : Option (BitVec 20)) : (s.setCode v).klen = s.klen := rfl
@[simp] theorem State.setCode_key (s : State) (v : Option (BitVec 20)) : (s.setCode v).key = s.key := rfl
@[simp] theorem State.setCode_cand (s : State) (v : Option (BitVec 20)) : (s.setCode v).cand = s.cand := rfl
@[simp] theorem State.setCode_ctr (s : State) (v : Option (BitVec 20)) : (s.setCode v).ctr = s.ctr := rfl
@[simp] theorem State.setCode_ch (s : State) (v : Option (BitVec 20)) : (s.setCode v).ch = s.ch := rfl
@[simp] theorem State.setCode_dig (s : State) (v : Option (BitVec 20)) : (s.setCode v).dig = s.dig := rfl
@[simp] theorem State.setCode_off (s : State) (v : Option (BitVec 20)) : (s.setCode v).off = s.off := rfl
@[simp] theorem State.setCode_win (s : State) (v : Option (BitVec 20)) : (s.setCode v).win = s.win := rfl
@[simp] theorem State.setCode_th (s : State) (v : Option (BitVec 20)) : (s.setCode v).th = s.th := rfl
@[simp] theorem State.setCode_code (s : State) (v : Option (BitVec 20)) : (s.setCode v).code = v := rfl
@[simp] theorem State.setCode_hostIn (s : State) (v : Option (BitVec 20)) : (s.setCode v).hostIn = s.hostIn := rfl
@[simp] theorem State.setCode_turns (s : State) (v : Option (BitVec 20)) : (s.setCode v).turns = s.turns := rfl

/-! `setHostIn` -/

@[simp] theorem State.setHostIn_stage (s : State) (v : List Byte) : (s.setHostIn v).stage = s.stage := rfl
@[simp] theorem State.setHostIn_cause (s : State) (v : List Byte) : (s.setHostIn v).cause = s.cause := rfl
@[simp] theorem State.setHostIn_matchFlag (s : State) (v : List Byte) : (s.setHostIn v).matchFlag = s.matchFlag := rfl
@[simp] theorem State.setHostIn_time (s : State) (v : List Byte) : (s.setHostIn v).time = s.time := rfl
@[simp] theorem State.setHostIn_klen (s : State) (v : List Byte) : (s.setHostIn v).klen = s.klen := rfl
@[simp] theorem State.setHostIn_key (s : State) (v : List Byte) : (s.setHostIn v).key = s.key := rfl
@[simp] theorem State.setHostIn_cand (s : State) (v : List Byte) : (s.setHostIn v).cand = s.cand := rfl
@[simp] theorem State.setHostIn_ctr (s : State) (v : List Byte) : (s.setHostIn v).ctr = s.ctr := rfl
@[simp] theorem State.setHostIn_ch (s : State) (v : List Byte) : (s.setHostIn v).ch = s.ch := rfl
@[simp] theorem State.setHostIn_dig (s : State) (v : List Byte) : (s.setHostIn v).dig = s.dig := rfl
@[simp] theorem State.setHostIn_off (s : State) (v : List Byte) : (s.setHostIn v).off = s.off := rfl
@[simp] theorem State.setHostIn_win (s : State) (v : List Byte) : (s.setHostIn v).win = s.win := rfl
@[simp] theorem State.setHostIn_th (s : State) (v : List Byte) : (s.setHostIn v).th = s.th := rfl
@[simp] theorem State.setHostIn_code (s : State) (v : List Byte) : (s.setHostIn v).code = s.code := rfl
@[simp] theorem State.setHostIn_hostIn (s : State) (v : List Byte) : (s.setHostIn v).hostIn = v := rfl
@[simp] theorem State.setHostIn_turns (s : State) (v : List Byte) : (s.setHostIn v).turns = s.turns := rfl

/-! `setTurns` -/

@[simp] theorem State.setTurns_stage (s : State) (v : List Turn) : (s.setTurns v).stage = s.stage := rfl
@[simp] theorem State.setTurns_cause (s : State) (v : List Turn) : (s.setTurns v).cause = s.cause := rfl
@[simp] theorem State.setTurns_matchFlag (s : State) (v : List Turn) : (s.setTurns v).matchFlag = s.matchFlag := rfl
@[simp] theorem State.setTurns_time (s : State) (v : List Turn) : (s.setTurns v).time = s.time := rfl
@[simp] theorem State.setTurns_klen (s : State) (v : List Turn) : (s.setTurns v).klen = s.klen := rfl
@[simp] theorem State.setTurns_key (s : State) (v : List Turn) : (s.setTurns v).key = s.key := rfl
@[simp] theorem State.setTurns_cand (s : State) (v : List Turn) : (s.setTurns v).cand = s.cand := rfl
@[simp] theorem State.setTurns_ctr (s : State) (v : List Turn) : (s.setTurns v).ctr = s.ctr := rfl
@[simp] theorem State.setTurns_ch (s : State) (v : List Turn) : (s.setTurns v).ch = s.ch := rfl
@[simp] theorem State.setTurns_dig (s : State) (v : List Turn) : (s.setTurns v).dig = s.dig := rfl
@[simp] theorem State.setTurns_off (s : State) (v : List Turn) : (s.setTurns v).off = s.off := rfl
@[simp] theorem State.setTurns_win (s : State) (v : List Turn) : (s.setTurns v).win = s.win := rfl
@[simp] theorem State.setTurns_th (s : State) (v : List Turn) : (s.setTurns v).th = s.th := rfl
@[simp] theorem State.setTurns_code (s : State) (v : List Turn) : (s.setTurns v).code = s.code := rfl
@[simp] theorem State.setTurns_hostIn (s : State) (v : List Turn) : (s.setTurns v).hostIn = s.hostIn := rfl
@[simp] theorem State.setTurns_turns (s : State) (v : List Turn) : (s.setTurns v).turns = v := rfl

/-! `raiseInvalidSecretLength` -/

@[simp] theorem raiseInvalidSecretLength_stage (s : State) : (raiseInvalidSecretLength s).stage = 11 := rfl
@[simp] theorem raiseInvalidSecretLength_cause (s : State) : (raiseInvalidSecretLength s).cause = 1 := rfl
@[simp] theorem raiseInvalidSecretLength_matchFlag (s : State) : (raiseInvalidSecretLength s).matchFlag = false := rfl
@[simp] theorem raiseInvalidSecretLength_time (s : State) : (raiseInvalidSecretLength s).time = s.time := rfl
@[simp] theorem raiseInvalidSecretLength_klen (s : State) : (raiseInvalidSecretLength s).klen = s.klen := rfl
@[simp] theorem raiseInvalidSecretLength_key (s : State) : (raiseInvalidSecretLength s).key = s.key := rfl
@[simp] theorem raiseInvalidSecretLength_cand (s : State) : (raiseInvalidSecretLength s).cand = s.cand := rfl
@[simp] theorem raiseInvalidSecretLength_ctr (s : State) : (raiseInvalidSecretLength s).ctr = s.ctr := rfl
@[simp] theorem raiseInvalidSecretLength_ch (s : State) : (raiseInvalidSecretLength s).ch = s.ch := rfl
@[simp] theorem raiseInvalidSecretLength_dig (s : State) : (raiseInvalidSecretLength s).dig = s.dig := rfl
@[simp] theorem raiseInvalidSecretLength_off (s : State) : (raiseInvalidSecretLength s).off = s.off := rfl
@[simp] theorem raiseInvalidSecretLength_win (s : State) : (raiseInvalidSecretLength s).win = s.win := rfl
@[simp] theorem raiseInvalidSecretLength_th (s : State) : (raiseInvalidSecretLength s).th = s.th := rfl
@[simp] theorem raiseInvalidSecretLength_code (s : State) : (raiseInvalidSecretLength s).code = s.code := rfl
@[simp] theorem raiseInvalidSecretLength_hostIn (s : State) : (raiseInvalidSecretLength s).hostIn = s.hostIn := rfl
@[simp] theorem raiseInvalidSecretLength_turns (s : State) : (raiseInvalidSecretLength s).turns = s.turns := rfl

/-! `clearBlock` -/

@[simp] theorem clearBlock_stage (s : State) : (clearBlock s).stage = State.reset.stage := rfl
@[simp] theorem clearBlock_cause (s : State) : (clearBlock s).cause = State.reset.cause := rfl
@[simp] theorem clearBlock_matchFlag (s : State) : (clearBlock s).matchFlag = State.reset.matchFlag := rfl
@[simp] theorem clearBlock_time (s : State) : (clearBlock s).time = State.reset.time := rfl
@[simp] theorem clearBlock_klen (s : State) : (clearBlock s).klen = State.reset.klen := rfl
@[simp] theorem clearBlock_key (s : State) : (clearBlock s).key = State.reset.key := rfl
@[simp] theorem clearBlock_cand (s : State) : (clearBlock s).cand = State.reset.cand := rfl
@[simp] theorem clearBlock_ctr (s : State) : (clearBlock s).ctr = State.reset.ctr := rfl
@[simp] theorem clearBlock_ch (s : State) : (clearBlock s).ch = State.reset.ch := rfl
@[simp] theorem clearBlock_dig (s : State) : (clearBlock s).dig = State.reset.dig := rfl
@[simp] theorem clearBlock_off (s : State) : (clearBlock s).off = State.reset.off := rfl
@[simp] theorem clearBlock_win (s : State) : (clearBlock s).win = State.reset.win := rfl
@[simp] theorem clearBlock_th (s : State) : (clearBlock s).th = State.reset.th := rfl
@[simp] theorem clearBlock_code (s : State) : (clearBlock s).code = State.reset.code := rfl
@[simp] theorem clearBlock_hostIn (s : State) : (clearBlock s).hostIn = s.hostIn := rfl
@[simp] theorem clearBlock_turns (s : State) : (clearBlock s).turns = s.turns := rfl

/-! Reset: the value of every item (10_state.md R39) -/

@[simp] theorem State.reset_stage : State.reset.stage = 0 := rfl
@[simp] theorem State.reset_cause : State.reset.cause = 0 := rfl
@[simp] theorem State.reset_matchFlag : State.reset.matchFlag = false := rfl
@[simp] theorem State.reset_time : State.reset.time = none := rfl
@[simp] theorem State.reset_klen : State.reset.klen = none := rfl
@[simp] theorem State.reset_key : State.reset.key = [] := rfl
@[simp] theorem State.reset_cand : State.reset.cand = none := rfl
@[simp] theorem State.reset_ctr : State.reset.ctr = none := rfl
@[simp] theorem State.reset_ch : State.reset.ch = [] := rfl
@[simp] theorem State.reset_dig : State.reset.dig = [] := rfl
@[simp] theorem State.reset_off : State.reset.off = none := rfl
@[simp] theorem State.reset_win : State.reset.win = none := rfl
@[simp] theorem State.reset_th : State.reset.th = none := rfl
@[simp] theorem State.reset_code : State.reset.code = none := rfl
@[simp] theorem State.reset_hostIn : State.reset.hostIn = [] := rfl
@[simp] theorem State.reset_turns : State.reset.turns = [] := rfl

/-! Buffers by space -/

@[simp] theorem State.buffer_key (s : State) : s.buffer .key = s.key := rfl
@[simp] theorem State.buffer_ch (s : State) : s.buffer .ch = s.ch := rfl
@[simp] theorem State.buffer_dig (s : State) : s.buffer .dig = s.dig := rfl
@[simp] theorem State.setBuffer_key (s : State) (m : Memory) : s.setBuffer .key m = s.setKey m := rfl
@[simp] theorem State.setBuffer_ch (s : State) (m : Memory) : s.setBuffer .ch m = s.setCh m := rfl
@[simp] theorem State.setBuffer_dig (s : State) (m : Memory) : s.setBuffer .dig m = s.setDig m := rfl
@[simp] theorem Space.size_key : Space.size .key = 100 := rfl
@[simp] theorem Space.size_ch : Space.size .ch = 8 := rfl
@[simp] theorem Space.size_dig : Space.size .dig = 20 := rfl

/-! Bytes and block reads after an update: a register's update moves no byte, a buffer's update moves its own bytes only -/

@[simp] theorem State.readByte_setStage (s : State) (v : BitVec 4) (sp : Space) (a : Nat) :
    (s.setStage v).readByte sp a = s.readByte sp a := by cases sp <;> rfl
@[simp] theorem State.memRead_setStage (s : State) (v : BitVec 4) (sp : Space) (a n : Nat) :
    (s.setStage v).memRead sp a n = s.memRead sp a n := by cases sp <;> rfl
@[simp] theorem State.readByte_setCause (s : State) (v : BitVec 2) (sp : Space) (a : Nat) :
    (s.setCause v).readByte sp a = s.readByte sp a := by cases sp <;> rfl
@[simp] theorem State.memRead_setCause (s : State) (v : BitVec 2) (sp : Space) (a n : Nat) :
    (s.setCause v).memRead sp a n = s.memRead sp a n := by cases sp <;> rfl
@[simp] theorem State.readByte_setMatch (s : State) (v : Bool) (sp : Space) (a : Nat) :
    (s.setMatch v).readByte sp a = s.readByte sp a := by cases sp <;> rfl
@[simp] theorem State.memRead_setMatch (s : State) (v : Bool) (sp : Space) (a n : Nat) :
    (s.setMatch v).memRead sp a n = s.memRead sp a n := by cases sp <;> rfl
@[simp] theorem State.readByte_setTime (s : State) (v : Option (BitVec 64)) (sp : Space) (a : Nat) :
    (s.setTime v).readByte sp a = s.readByte sp a := by cases sp <;> rfl
@[simp] theorem State.memRead_setTime (s : State) (v : Option (BitVec 64)) (sp : Space) (a n : Nat) :
    (s.setTime v).memRead sp a n = s.memRead sp a n := by cases sp <;> rfl
@[simp] theorem State.readByte_setKlen (s : State) (v : Option Byte) (sp : Space) (a : Nat) :
    (s.setKlen v).readByte sp a = s.readByte sp a := by cases sp <;> rfl
@[simp] theorem State.memRead_setKlen (s : State) (v : Option Byte) (sp : Space) (a n : Nat) :
    (s.setKlen v).memRead sp a n = s.memRead sp a n := by cases sp <;> rfl
@[simp] theorem State.readByte_setCand (s : State) (v : Option (BitVec 32)) (sp : Space) (a : Nat) :
    (s.setCand v).readByte sp a = s.readByte sp a := by cases sp <;> rfl
@[simp] theorem State.memRead_setCand (s : State) (v : Option (BitVec 32)) (sp : Space) (a n : Nat) :
    (s.setCand v).memRead sp a n = s.memRead sp a n := by cases sp <;> rfl
@[simp] theorem State.readByte_setCtr (s : State) (v : Option (BitVec 64)) (sp : Space) (a : Nat) :
    (s.setCtr v).readByte sp a = s.readByte sp a := by cases sp <;> rfl
@[simp] theorem State.memRead_setCtr (s : State) (v : Option (BitVec 64)) (sp : Space) (a n : Nat) :
    (s.setCtr v).memRead sp a n = s.memRead sp a n := by cases sp <;> rfl
@[simp] theorem State.readByte_setOff (s : State) (v : Option (BitVec 4)) (sp : Space) (a : Nat) :
    (s.setOff v).readByte sp a = s.readByte sp a := by cases sp <;> rfl
@[simp] theorem State.memRead_setOff (s : State) (v : Option (BitVec 4)) (sp : Space) (a n : Nat) :
    (s.setOff v).memRead sp a n = s.memRead sp a n := by cases sp <;> rfl
@[simp] theorem State.readByte_setWin (s : State) (v : Option (BitVec 32)) (sp : Space) (a : Nat) :
    (s.setWin v).readByte sp a = s.readByte sp a := by cases sp <;> rfl
@[simp] theorem State.memRead_setWin (s : State) (v : Option (BitVec 32)) (sp : Space) (a n : Nat) :
    (s.setWin v).memRead sp a n = s.memRead sp a n := by cases sp <;> rfl
@[simp] theorem State.readByte_setTh (s : State) (v : Option (BitVec 31)) (sp : Space) (a : Nat) :
    (s.setTh v).readByte sp a = s.readByte sp a := by cases sp <;> rfl
@[simp] theorem State.memRead_setTh (s : State) (v : Option (BitVec 31)) (sp : Space) (a n : Nat) :
    (s.setTh v).memRead sp a n = s.memRead sp a n := by cases sp <;> rfl
@[simp] theorem State.readByte_setCode (s : State) (v : Option (BitVec 20)) (sp : Space) (a : Nat) :
    (s.setCode v).readByte sp a = s.readByte sp a := by cases sp <;> rfl
@[simp] theorem State.memRead_setCode (s : State) (v : Option (BitVec 20)) (sp : Space) (a n : Nat) :
    (s.setCode v).memRead sp a n = s.memRead sp a n := by cases sp <;> rfl
@[simp] theorem State.readByte_setHostIn (s : State) (v : List Byte) (sp : Space) (a : Nat) :
    (s.setHostIn v).readByte sp a = s.readByte sp a := by cases sp <;> rfl
@[simp] theorem State.memRead_setHostIn (s : State) (v : List Byte) (sp : Space) (a n : Nat) :
    (s.setHostIn v).memRead sp a n = s.memRead sp a n := by cases sp <;> rfl
@[simp] theorem State.readByte_setTurns (s : State) (v : List Turn) (sp : Space) (a : Nat) :
    (s.setTurns v).readByte sp a = s.readByte sp a := by cases sp <;> rfl
@[simp] theorem State.memRead_setTurns (s : State) (v : List Turn) (sp : Space) (a n : Nat) :
    (s.setTurns v).memRead sp a n = s.memRead sp a n := by cases sp <;> rfl
@[simp] theorem State.readByte_setKey_key (s : State) (m : Memory) (a : Nat) :
    (s.setKey m).readByte .key a = m.read a := rfl
@[simp] theorem State.readByte_setKey_ch (s : State) (m : Memory) (a : Nat) :
    (s.setKey m).readByte .ch a = s.readByte .ch a := rfl
@[simp] theorem State.memRead_setKey_ch (s : State) (m : Memory) (a n : Nat) :
    (s.setKey m).memRead .ch a n = s.memRead .ch a n := rfl
@[simp] theorem State.readByte_setKey_dig (s : State) (m : Memory) (a : Nat) :
    (s.setKey m).readByte .dig a = s.readByte .dig a := rfl
@[simp] theorem State.memRead_setKey_dig (s : State) (m : Memory) (a n : Nat) :
    (s.setKey m).memRead .dig a n = s.memRead .dig a n := rfl
@[simp] theorem State.readByte_setCh_key (s : State) (m : Memory) (a : Nat) :
    (s.setCh m).readByte .key a = s.readByte .key a := rfl
@[simp] theorem State.memRead_setCh_key (s : State) (m : Memory) (a n : Nat) :
    (s.setCh m).memRead .key a n = s.memRead .key a n := rfl
@[simp] theorem State.readByte_setCh_ch (s : State) (m : Memory) (a : Nat) :
    (s.setCh m).readByte .ch a = m.read a := rfl
@[simp] theorem State.readByte_setCh_dig (s : State) (m : Memory) (a : Nat) :
    (s.setCh m).readByte .dig a = s.readByte .dig a := rfl
@[simp] theorem State.memRead_setCh_dig (s : State) (m : Memory) (a n : Nat) :
    (s.setCh m).memRead .dig a n = s.memRead .dig a n := rfl
@[simp] theorem State.readByte_setDig_key (s : State) (m : Memory) (a : Nat) :
    (s.setDig m).readByte .key a = s.readByte .key a := rfl
@[simp] theorem State.memRead_setDig_key (s : State) (m : Memory) (a n : Nat) :
    (s.setDig m).memRead .key a n = s.memRead .key a n := rfl
@[simp] theorem State.readByte_setDig_ch (s : State) (m : Memory) (a : Nat) :
    (s.setDig m).readByte .ch a = s.readByte .ch a := rfl
@[simp] theorem State.memRead_setDig_ch (s : State) (m : Memory) (a n : Nat) :
    (s.setDig m).memRead .ch a n = s.memRead .ch a n := rfl
@[simp] theorem State.readByte_setDig_dig (s : State) (m : Memory) (a : Nat) :
    (s.setDig m).readByte .dig a = m.read a := rfl
@[simp] theorem readByte_raiseInvalidSecretLength (s : State) (sp : Space) (a : Nat) :
    (raiseInvalidSecretLength s).readByte sp a = s.readByte sp a := by cases sp <;> rfl
@[simp] theorem readByte_clearBlock (s : State) (sp : Space) (a : Nat) :
    (clearBlock s).readByte sp a = none := by cases sp <;> rfl

end Sys2Proof.Machine
end

