-- ==== Sys2Proof/Laws/Memory.lean ====
section
/-! SUPPORT. What the operations over byte buffers do: read after write, the canonical form, and what MemRead and MemWrite
answer (20_memory.md R62, R63). -/

namespace Sys2Proof.Machine

@[simp] theorem Memory.read_nil (a : Nat) : Memory.read [] a = none := rfl

@[simp] theorem Memory.read_cons (x : Nat) (b : Byte) (m : Memory) (a : Nat) :
    Memory.read ((x, b) :: m) a = if x = a then some b else m.read a := rfl

/-- A write changes its own index and no other. -/
theorem Memory.read_write (m : Memory) (a : Nat) (b : Byte) (x : Nat) :
    (m.write a b).read x = if x = a then some b else m.read x := by
  induction m with
  | nil => by_cases h : a = x <;> simp [Memory.write, h, eq_comm (a := x)]
  | cons c m ih =>
    obtain ⟨y, d⟩ := c
    simp only [Memory.write]
    split
    · by_cases h : a = x <;> simp [h, eq_comm (a := x)]
    · split
      · next h1 h2 => subst h2; by_cases h : a = x <;> simp [h, eq_comm (a := x)]
      · next h1 h2 =>
        by_cases h : y = x
        · subst h; simp [Ne.symm h2]
        · simp [h, ih]

/-- A block write changes exactly the indexes of its bytes. -/
theorem Memory.read_writeBytes (bs : List Byte) : ∀ (m : Memory) (a x : Nat),
    (m.writeBytes a bs).read x = if a ≤ x ∧ x < a + bs.length then bs[x - a]? else m.read x := by
  induction bs with
  | nil => intro m a x; rw [if_neg (by simp)]; rfl
  | cons b bs ih =>
    intro m a x
    simp only [Memory.writeBytes, ih, Memory.read_write, List.length_cons]
    by_cases h1 : x = a
    · subst h1; simp
    · by_cases h2 : a + 1 ≤ x ∧ x < a + 1 + bs.length
      · rw [if_pos h2, if_pos (by omega)]
        obtain ⟨k, hk⟩ : ∃ k, x = a + 1 + k := ⟨x - (a + 1), by omega⟩
        subst hk
        simp [show a + 1 + k - a = k + 1 by omega]
      · rw [if_neg h2, if_neg h1, if_neg (by omega)]

/-- A write inside the buffer keeps the canonical form. -/
theorem Memory.wfFrom_write {size lo a : Nat} {b : Byte} {m : Memory} (h : Memory.wfFrom size lo m = true)
    (hlo : lo ≤ a) (ha : a < size) : Memory.wfFrom size lo (m.write a b) = true := by
  induction m generalizing lo with
  | nil => simp [Memory.write, Memory.wfFrom, hlo, ha]
  | cons c m ih =>
    obtain ⟨y, d⟩ := c
    simp only [Memory.wfFrom, Bool.and_eq_true, decide_eq_true_eq] at h
    simp only [Memory.write]
    split
    · simp only [Memory.wfFrom, Bool.and_eq_true, decide_eq_true_eq]
      exact ⟨⟨hlo, ha⟩, ⟨by omega, h.1.2⟩, h.2⟩
    · split
      · next h2 => subst h2; simp [Memory.wfFrom, hlo, ha, h.2]
      · simp only [Memory.wfFrom, Bool.and_eq_true, decide_eq_true_eq]
        exact ⟨h.1, ih h.2 (by omega)⟩

/-- A block write inside the buffer keeps the canonical form. -/
theorem Memory.wf_writeBytes {size : Nat} (bs : List Byte) : ∀ {m : Memory} {a : Nat},
    Memory.wf size m = true → a + bs.length ≤ size → Memory.wf size (m.writeBytes a bs) = true := by
  induction bs with
  | nil => intro m a h _; exact h
  | cons b bs ih =>
    intro m a h hb
    simp only [List.length_cons] at hb
    exact ih (Memory.wfFrom_write h (Nat.zero_le a) (by omega)) (by omega)

@[simp] theorem Memory.wf_nil (size : Nat) : Memory.wf size [] = true := rfl

/-- In a canonical buffer nothing is listed before the bound the form starts from. -/
theorem Memory.read_lt {size lo : Nat} {m : Memory} (h : Memory.wfFrom size lo m = true) {a : Nat} (ha : a < lo) :
    m.read a = none := by
  induction m generalizing lo with
  | nil => rfl
  | cons c m ih =>
    obtain ⟨y, d⟩ := c
    simp only [Memory.wfFrom, Bool.and_eq_true, decide_eq_true_eq] at h
    rw [Memory.read_cons, if_neg (by omega)]
    exact ih h.2 (by omega)

/-- Nothing is listed at or above the buffer's size. -/
theorem Memory.read_size_le {size lo : Nat} {m : Memory} (h : Memory.wfFrom size lo m = true) {a : Nat}
    (ha : size ≤ a) : m.read a = none := by
  induction m generalizing lo with
  | nil => rfl
  | cons c m ih =>
    obtain ⟨y, d⟩ := c
    simp only [Memory.wfFrom, Bool.and_eq_true, decide_eq_true_eq] at h
    rw [Memory.read_cons, if_neg (by omega)]
    exact ih h.2

/-- Canonical buffers that read the same everywhere are equal lists. -/
theorem Memory.ext_read {size : Nat} : ∀ {lo lo' : Nat} {m m' : Memory}, Memory.wfFrom size lo m = true →
    Memory.wfFrom size lo' m' = true → (∀ a, m.read a = m'.read a) → m = m'
  | _, _, [], [], _, _, _ => rfl
  | _, _, [], (y, d) :: m', _, _, h => by simpa using h y
  | _, _, (x, c) :: m, [], _, _, h => by simpa using h x
  | lo, lo', (x, c) :: m, (y, d) :: m', hm, hm', h => by
    simp only [Memory.wfFrom, Bool.and_eq_true, decide_eq_true_eq] at hm hm'
    have key : x = y := by
      by_contra hne
      rcases Nat.lt_or_gt_of_ne hne with hlt | hlt
      · have := h x
        rw [Memory.read_cons, if_pos rfl, Memory.read_cons, if_neg (by omega), Memory.read_lt hm'.2 (by omega)] at this
        simp at this
      · have := h y
        rw [Memory.read_cons, if_neg (by omega), Memory.read_lt hm.2 (by omega), Memory.read_cons, if_pos rfl] at this
        simp at this
    subst key
    have hcd : c = d := by simpa using h x
    subst hcd
    rw [Memory.ext_read hm.2 hm'.2]
    intro a
    by_cases ha : x = a
    · subst ha; rw [Memory.read_lt hm.2 (by omega), Memory.read_lt hm'.2 (by omega)]
    · simpa [ha] using h a

/-- A block read answers exactly when every byte of the range has a value, and then with those bytes. -/
theorem Memory.readBytes_eq_ok {m : Memory} (n : Nat) : ∀ {a : Nat} {bs : List Byte},
    m.readBytes a n = .ok bs ↔ bs.length = n ∧ ∀ i < n, m.read (a + i) = bs[i]? := by
  induction n with
  | zero => intro a bs; cases bs <;> simp [Memory.readBytes]
  | succ n ih =>
    intro a bs
    simp only [Memory.readBytes]
    cases hr : m.read a with
    | none =>
      simp only [reduceCtorEq, false_iff]
      rintro ⟨hl, h⟩
      have := h 0 (by omega)
      rw [Nat.add_zero, hr, eq_comm, List.getElem?_eq_none_iff] at this
      omega
    | some b =>
      cases hb : m.readBytes (a + 1) n with
      | error e =>
        simp only [reduceCtorEq, false_iff]
        rintro ⟨hl, h⟩
        cases bs with
        | nil => simp at hl
        | cons c cs =>
          have : m.readBytes (a + 1) n = .ok cs := ih.2 ⟨by simpa using hl, fun i hi => by
            have := h (i + 1) (by omega)
            rwa [List.getElem?_cons_succ, show a + (i + 1) = a + 1 + i by omega] at this⟩
          rw [hb] at this; simp at this
      | ok cs =>
        have hcs := ih.1 hb
        simp only [Except.ok.injEq]
        constructor
        · rintro rfl
          refine ⟨by simp [hcs.1], fun i hi => ?_⟩
          cases i with
          | zero => simpa using hr
          | succ i => simpa [show a + (i + 1) = a + 1 + i by omega] using hcs.2 i (by omega)
        · rintro ⟨hl, h⟩
          cases bs with
          | nil => simp at hl
          | cons c ds =>
            have h0 := h 0 (by omega)
            simp only [Nat.add_zero, hr, List.getElem?_cons_zero, Option.some.injEq] at h0
            subst h0
            have : m.readBytes (a + 1) n = .ok ds := ih.2 ⟨by simpa using hl, fun i hi => by
              have := h (i + 1) (by omega)
              rwa [List.getElem?_cons_succ, show a + (i + 1) = a + 1 + i by omega] at this⟩
            rw [hb] at this; simpa using this

/-- MemRead answers exactly inside the buffer, where every byte has a value, and with those bytes (R62). -/
theorem State.memRead_eq_ok {s : State} {sp : Space} {a n : Nat} {bs : List Byte} :
    s.memRead sp a n = .ok bs ↔ a + n ≤ sp.size ∧ bs.length = n ∧ ∀ i < n, s.readByte sp (a + i) = bs[i]? := by
  simp only [State.memRead, State.readByte, ← Memory.readBytes_eq_ok]
  split
  · next h => cases (s.buffer sp).readBytes a n <;> simp [h]
  · next h => simp [h]

/-- MemRead's answer depends on the range's bytes only. -/
theorem State.memRead_congr {s t : State} {sp : Space} {a n : Nat}
    (h : ∀ i < n, t.readByte sp (a + i) = s.readByte sp (a + i)) {bs : List Byte} (hs : s.memRead sp a n = .ok bs) :
    t.memRead sp a n = .ok bs := by
  rw [State.memRead_eq_ok] at hs ⊢
  exact ⟨hs.1, hs.2.1, fun i hi => (h i hi).trans (hs.2.2 i hi)⟩

/-- MemWrite answers exactly inside the buffer (R63). -/
theorem State.memWrite_eq_ok {s t : State} {sp : Space} {a : Nat} {bs : List Byte} :
    s.memWrite sp a bs = .ok t ↔
      a + bs.length ≤ sp.size ∧ t = s.setBuffer sp ((s.buffer sp).writeBytes a bs) := by
  simp only [State.memWrite]
  split <;> simp_all [eq_comm]

/-- The bytes of every space after a buffer is replaced. -/
theorem State.readByte_setBuffer (s : State) (sp sp' : Space) (m : Memory) (x : Nat) :
    (s.setBuffer sp m).readByte sp' x = if sp' = sp then m.read x else s.readByte sp' x := by
  cases sp <;> cases sp' <;> rfl

/-- The bytes of every space after MemWrite: the range's bytes are written, every other byte reads as before (R63). -/
theorem State.readByte_memWrite {s t : State} {sp : Space} {a : Nat} {bs : List Byte}
    (h : s.memWrite sp a bs = .ok t) (sp' : Space) (x : Nat) :
    t.readByte sp' x = if sp' = sp ∧ a ≤ x ∧ x < a + bs.length then bs[x - a]? else s.readByte sp' x := by
  obtain ⟨-, rfl⟩ := State.memWrite_eq_ok.1 h
  rw [State.readByte_setBuffer]
  by_cases hs : sp' = sp
  · subst hs; simp [Memory.read_writeBytes, State.readByte]
  · simp [hs]

/-- MemRead answers where every byte of the range has a value. -/
theorem State.memRead_of_isSome (s : State) (sp : Space) (n : Nat) : ∀ a, a + n ≤ sp.size →
    (∀ i < n, (s.readByte sp (a + i)).isSome = true) → ∃ bs, s.memRead sp a n = .ok bs := by
  intro a hb h
  suffices ∃ bs, (s.buffer sp).readBytes a n = .ok bs by
    obtain ⟨bs, h⟩ := this
    exact ⟨bs, by simp [State.memRead, hb, h]⟩
  clear hb
  induction n generalizing a with
  | zero => exact ⟨[], rfl⟩
  | succ n ih =>
    obtain ⟨bs, hbs⟩ := ih (a + 1) fun i hi => by
      have := h (i + 1) (by omega)
      rwa [show a + (i + 1) = a + 1 + i by omega] at this
    have h0 := h 0 (by omega)
    simp only [State.readByte, Nat.add_zero, Option.isSome_iff_exists] at h0
    obtain ⟨b, hb⟩ := h0
    exact ⟨b :: bs, by simp [Memory.readBytes, hb, hbs]⟩

/-- A block read that stops names an index of the range that has no value. -/
theorem Memory.readBytes_eq_error {m : Memory} (n : Nat) : ∀ {a j : Nat}, m.readBytes a n = .error j →
    a ≤ j ∧ j < a + n ∧ m.read j = none := by
  induction n with
  | zero => intro a j h; simp [Memory.readBytes] at h
  | succ n ih =>
    intro a j h
    simp only [Memory.readBytes] at h
    cases hr : m.read a with
    | none =>
      rw [hr] at h
      cases h
      exact ⟨Nat.le_refl a, by omega, hr⟩
    | some b =>
      rw [hr] at h
      cases hb : m.readBytes (a + 1) n with
      | ok bs => rw [hb] at h; cases h
      | error i =>
        rw [hb] at h
        cases h
        obtain ⟨h1, h2, h3⟩ := ih hb
        exact ⟨by omega, by omega, h3⟩

/-- MemRead faults where a byte of the range has no value, and names such a byte (00_scope.md R14). -/
theorem State.memRead_of_none (s : State) (sp : Space) {a n i : Nat} (hb : a + n ≤ sp.size) (hi : i < n)
    (h : s.readByte sp (a + i) = none) :
    ∃ j, a ≤ j ∧ j < a + n ∧ s.readByte sp j = none ∧ s.memRead sp a n = .error (.unwrittenByte sp j) := by
  cases hr : (s.buffer sp).readBytes a n with
  | error j =>
    obtain ⟨h1, h2, h3⟩ := Memory.readBytes_eq_error n hr
    exact ⟨j, h1, h2, h3, by simp [State.memRead, hb, hr]⟩
  | ok bs =>
    have h1 := (Memory.readBytes_eq_ok n).1 hr
    have h2 := h1.2 i hi
    simp only [State.readByte] at h
    rw [h, eq_comm, List.getElem?_eq_none_iff] at h2
    omega

end Sys2Proof.Machine
end

