-- ==== Sys2Proof/Laws/Ops.lean ====
section
/-! SUPPORT. What the shared operations can answer: reading, loading in IDLE, and the decoders. Cited by the lemmas about the
meanings instead of unfolding. -/

namespace Sys2Proof.Machine

/-- Two next states are the same outcome exactly when the states are, the second one first. -/
theorem next_eq_next {a b : State} : (Host.Outcome.next a : Result) = .next b ↔ b = a := by
  rw [Host.Outcome.next.injEq, eq_comm]

/-- Going on with a read reaches a next state exactly when the read answers and what follows does. -/
theorem onRead_eq_next {α : Type} {r : Except Fault α} {k : α → Result} {t : State} :
    onRead r k = .next t ↔ ∃ x, r = .ok x ∧ k x = .next t := by
  cases r <;> simp [onRead]

/-- It stops with a fault exactly when the read does, or what follows does. -/
theorem onRead_eq_fault {α : Type} {r : Except Fault α} {k : α → Result} {f : Fault} :
    onRead r k = .fault f ↔ r = .error f ∨ ∃ x, r = .ok x ∧ k x = .fault f := by
  cases r <;> simp [onRead]

@[simp] theorem onRead_ok {α : Type} (x : α) (k : α → Result) : onRead (.ok x) k = k x := rfl
@[simp] theorem onRead_error {α : Type} (f : Fault) (k : α → Result) : onRead (.error f) k = .fault f := rfl

/-- A register read answers exactly the register's value. -/
@[simp] theorem readReg_eq_ok {α : Type} {r : Reg} {v : Option α} {x : α} : readReg r v = .ok x ↔ v = some x := by
  cases v <;> simp [readReg]

@[simp] theorem readReg_some {α : Type} (r : Reg) (x : α) : readReg r (some x) = .ok x := rfl
@[simp] theorem readReg_none {α : Type} (r : Reg) :
    readReg r (none : Option α) = .error (.unwrittenRegister r) := rfl

/-- A load answers a next state in IDLE through its effect, and elsewhere with nothing changed (40_host_commands.md R120). -/
theorem whenIdle_eq_next {s t : State} {r : Result} :
    whenIdle s r = .next t ↔ (s.idle = true ∧ r = .next t) ∨ (s.idle = false ∧ t = s) := by
  unfold whenIdle
  cases s.idle <;> simp [eq_comm]

/-! The status outputs in terms of STAGE (10_state.md R23) -/

theorem State.idle_iff {s : State} : s.idle = true ↔ s.stage = 0 := by
  simp [State.idle, ← BitVec.toNat_inj]

theorem State.busy_iff {s : State} : s.busy = true ↔ 1 ≤ s.stage.toNat ∧ s.stage.toNat ≤ 9 := by
  simp [State.busy]

theorem State.done_iff {s : State} : s.done = true ↔ s.stage = 10 := by
  simp [State.done, ← BitVec.toNat_inj]

theorem State.err_iff {s : State} : s.err = true ↔ s.stage = 11 := by
  simp [State.err, ← BitVec.toNat_inj]

theorem State.clearable_iff {s : State} : s.clearable = true ↔ s.stage = 0 ∨ s.stage = 10 ∨ s.stage = 11 := by
  simp [State.clearable, State.idle_iff, State.done_iff, State.err_iff, or_assoc]

/-- Replacing a list of turns by itself, or of bytes, changes nothing. -/
@[simp] theorem State.setTurns_self (s : State) : s.setTurns s.turns = s := rfl
@[simp] theorem State.setHostIn_self (s : State) : s.setHostIn s.hostIn = s := rfl

/-! The decoders' answers -/

/-- A stage code is decoded exactly to the operation it encodes (30_encoding.md R92). -/
theorem decodeStage_cases {op : BitVec 4} {i : Instr} (h : decodeStage op = .ok i) :
    (op = 0 ∧ i = .idle) ∨ (op = 1 ∧ i = .tdiv) ∨ (op = 2 ∧ i = .tenc) ∨ (op = 3 ∧ i = .kchk) ∨
    (op = 4 ∧ i = .hmac) ∨ (op = 5 ∧ i = .offs) ∨ (op = 6 ∧ i = .wasm) ∨ (op = 7 ∧ i = .msk31) ∨
    (op = 8 ∧ i = .modr) ∨ (op = 9 ∧ i = .vcmp) ∨ (op = 10 ∧ i = .done) ∨ (op = 11 ∧ i = .fail) := by
  revert h
  simp only [decodeStage, ← BitVec.toNat_inj]
  split <;> simp_all [eq_comm]

/-- What a decoded host command is: one of the six, the key of an LDK of the length its length byte says. -/
theorem decodeCommand_cases {bs rest : List Byte} {i : Instr} (h : decodeCommand bs = .ok (i, rest)) :
    i = .nop ∨ (∃ t, i = .ldt t) ∨ (∃ len k, i = .ldk len k ∧ k.length = len.toNat) ∨ (∃ c, i = .ldc c) ∨
    i = .go ∨ i = .clr := by
  cases bs with
  | nil => simp [decodeCommand] at h
  | cons b bs =>
    simp only [decodeCommand] at h
    split at h
    · simp at h
    · split at h
      · simp at h; simp [h.1.symm]
      · simp only [decodeLdt, takePayload] at h
        split at h <;> simp at h
        next p r hp => exact .inr (.inl ⟨_, h.1.symm⟩)
      · simp only [decodeLdk, takePayload] at h
        split at h
        · simp at h
        · split at h
          · next p r hp =>
            simp only [Except.ok.injEq, Prod.mk.injEq] at h
            split at hp <;> simp at hp
            refine .inr (.inr (.inl ⟨_, _, h.1.symm, ?_⟩))
            rw [← hp.1, List.length_take]; omega
          · simp at h
      · simp only [decodeLdc, takePayload] at h
        split at h <;> simp at h
        next p r hp => exact .inr (.inr (.inr (.inl ⟨_, h.1.symm⟩)))
      · simp at h; simp [h.1.symm]
      · simp at h; simp [h.1.symm]
      · simp at h

/-- A decoded host command is well formed. -/
theorem decodeCommand_wf {bs rest : List Byte} {i : Instr} (h : decodeCommand bs = .ok (i, rest)) : i.wf = true := by
  rcases decodeCommand_cases h with rfl | ⟨t, rfl⟩ | ⟨len, k, rfl, hk⟩ | ⟨c, rfl⟩ | rfl | rfl <;>
    simp [Instr.wf]
  exact hk

/-! The machine's configuration -/

@[simp] theorem config_stepSize : config.stepSize = 30 := rfl
theorem config_hmacSha1 : config.hmacSha1 = Sha1.hmacSha1 := rfl

@[simp] theorem challengeBytes_length (v : BitVec 64) : (challengeBytes v).length = 8 := rfl

theorem challengeBytes_getElem? (v : BitVec 64) {i : Nat} (h : i < 8) : (challengeBytes v)[i]? = some (beByte64 v i) := by
  simp [challengeBytes, challengeLen, h]

end Sys2Proof.Machine
end

