-- ==== Sys2Proof/Laws/Exec.lean ====
section
/-! SUPPORT. For each operation, exactly when its meaning answers a next state, and which. -/

namespace Sys2Proof.Machine

/-! ## The wait stages and NOP -/

theorem exec_idle (s : State) : exec .idle s = .next s := rfl
theorem exec_done (s : State) : exec .done s = .next s := rfl
theorem exec_fail (s : State) : exec .fail s = .next s := rfl
theorem exec_nop (s : State) : exec .nop s = .next s := rfl

/-! ## The stage operations -/

theorem exec_tdiv_eq_next {s u : State} : exec .tdiv s = .next u ↔
    ∃ t, s.time = some t ∧ u = (s.setCtr (some (timeCounter config t))).setStage 2 := by
  simp only [exec, execTdiv, execTdivWith, onRead_eq_next, State.readTime, readReg_eq_ok, next_eq_next]

theorem exec_tenc_eq_next {s u : State} : exec .tenc s = .next u ↔
    ∃ v, s.ctr = some v ∧ u = (s.setCh (s.ch.writeBytes 0 (challengeBytes v))).setStage 3 := by
  simp only [exec, execTenc, onRead_eq_next, State.readCtr, readReg_eq_ok, State.memWrite_eq_ok]
  constructor
  · rintro ⟨v, hv, s', ⟨-, rfl⟩, h⟩
    exact ⟨v, hv, by simpa [eq_comm] using h⟩
  · rintro ⟨v, hv, rfl⟩
    exact ⟨v, hv, _, ⟨by simp, rfl⟩, rfl⟩

theorem exec_kchk_eq_next {s u : State} : exec .kchk s = .next u ↔
    ∃ n, s.klen = some n ∧ u = if keyLengthOk n then s.setStage 4 else raiseInvalidSecretLength s := by
  simp only [exec, execKchk, onRead_eq_next, State.readKlen, readReg_eq_ok]
  refine exists_congr fun n => and_congr_right fun _ => ?_
  split <;> simp [eq_comm]

theorem execHmacWith_eq_next {c : Config} {s u : State} : execHmacWith c s = .next u ↔
    ∃ n key msg, s.klen = some n ∧ s.memRead .key 0 n.toNat = .ok key ∧ s.memRead .ch 0 8 = .ok msg ∧
      u = (s.setDig (s.dig.writeBytes 0 (c.hmacSha1 key msg).toList)).setStage 5 := by
  simp only [execHmacWith, onRead_eq_next, State.readKlen, readReg_eq_ok, State.memWrite_eq_ok, challengeLen]
  constructor
  · rintro ⟨n, hn, key, hk, msg, hm, s', ⟨-, rfl⟩, h⟩
    exact ⟨n, key, msg, hn, hk, hm, by simpa [eq_comm] using h⟩
  · rintro ⟨n, key, msg, hn, hk, hm, rfl⟩
    exact ⟨n, hn, key, hk, msg, hm, _, ⟨by simp, rfl⟩, rfl⟩

theorem exec_hmac_eq_next {s u : State} : exec .hmac s = .next u ↔
    ∃ n key msg, s.klen = some n ∧ s.memRead .key 0 n.toNat = .ok key ∧ s.memRead .ch 0 8 = .ok msg ∧
      u = (s.setDig (s.dig.writeBytes 0 (config.hmacSha1 key msg).toList)).setStage 5 :=
  execHmacWith_eq_next

theorem exec_offs_eq_next {s u : State} : exec .offs s = .next u ↔
    ∃ b, s.readByte .dig 19 = some b ∧ u = (s.setOff (some (offsetOf b))).setStage 6 := by
  simp only [exec, execOffs, onRead_eq_next, State.memRead_eq_ok]
  constructor
  · rintro ⟨bs, ⟨-, hl, hb⟩, h⟩
    obtain ⟨b, rfl⟩ := List.length_eq_one_iff.1 hl
    exact ⟨b, by simpa using hb 0 (by omega), by simpa [eq_comm] using h⟩
  · rintro ⟨b, hb, rfl⟩
    exact ⟨[b], ⟨by simp, rfl, fun i hi => by
      obtain rfl : i = 0 := by omega
      simpa using hb⟩, rfl⟩

theorem exec_wasm_eq_next {s u : State} : exec .wasm s = .next u ↔
    ∃ off bs, s.off = some off ∧ s.memRead .dig off.toNat 4 = .ok bs ∧
      u = (s.setWin (some (windowOf bs))).setStage 7 := by
  simp only [exec, execWasm, onRead_eq_next, State.readOff, readReg_eq_ok, next_eq_next]
  simp only [exists_and_left]

theorem exec_msk31_eq_next {s u : State} : exec .msk31 s = .next u ↔
    ∃ w, s.win = some w ∧ u = (s.setTh (some (maskWindow w))).setStage 8 := by
  simp only [exec, execMsk31, onRead_eq_next, State.readWin, readReg_eq_ok, next_eq_next]

theorem exec_modr_eq_next {s u : State} : exec .modr s = .next u ↔
    ∃ h, s.th = some h ∧ u = (s.setCode (some (reduceCode h))).setStage 9 := by
  simp only [exec, execModr, onRead_eq_next, State.readTh, readReg_eq_ok, next_eq_next]

theorem exec_vcmp_eq_next {s u : State} : exec .vcmp s = .next u ↔
    ∃ c d, s.code = some c ∧ s.cand = some d ∧ u = (s.setMatch (codeMatches c d)).setStage 10 := by
  simp only [exec, execVcmp, onRead_eq_next, State.readCode, State.readCand, readReg_eq_ok, next_eq_next, exists_and_left]

/-! ## The host commands -/

theorem exec_ldt_eq_next {t : BitVec 64} {s u : State} : exec (.ldt t) s = .next u ↔
    (s.stage = 0 ∧ u = s.setTime (some t)) ∨ (s.stage ≠ 0 ∧ u = s) := by
  simp only [exec, execLdt, whenIdle_eq_next, ne_eq, ← State.idle_iff, Bool.not_eq_true, next_eq_next]

theorem exec_ldc_eq_next {c : BitVec 32} {s u : State} : exec (.ldc c) s = .next u ↔
    (s.stage = 0 ∧ u = s.setCand (some c)) ∨ (s.stage ≠ 0 ∧ u = s) := by
  simp only [exec, execLdc, whenIdle_eq_next, ne_eq, ← State.idle_iff, Bool.not_eq_true, next_eq_next]

/-- What LDK makes of the key buffer: the key bytes, or nothing for a length over 100 (40_host_commands.md R122). -/
def loadedKey (len : Byte) (k : List Byte) : Memory := if len.toNat ≤ keyMax then Memory.writeBytes [] 0 k else []

/-- The key bytes that have a value after LDK: those below a length of at most 100 (R122). -/
theorem loadedKey_isSome {len : Byte} {k : List Byte} (hk : k.length = len.toNat) (i : Nat) :
    ((loadedKey len k).read i).isSome = true ↔ (len.toNat ≤ 100 ∧ i < len.toNat) := by
  unfold loadedKey
  split
  · next h =>
    have h' : len.toNat ≤ 100 := h
    rw [Memory.read_writeBytes]
    by_cases h2 : i < len.toNat <;> simp [hk, h2, h']
  · next h =>
    have h' : ¬ len.toNat ≤ 100 := h
    simp [h']

theorem exec_ldk_eq_next {len : Byte} {k : List Byte} {s u : State} (hk : k.length = len.toNat) :
    exec (.ldk len k) s = .next u ↔
      (s.stage = 0 ∧ u = (s.setKlen (some len)).setKey (loadedKey len k)) ∨ (s.stage ≠ 0 ∧ u = s) := by
  simp only [exec, execLdk, whenIdle_eq_next, ne_eq, ← State.idle_iff, Bool.not_eq_true]
  refine or_congr (and_congr_right fun _ => ?_) Iff.rfl
  unfold loadedKey
  split
  · next h =>
    have h' : len.toNat ≤ 100 := h
    simp only [onRead_eq_next, State.memWrite_eq_ok, Host.Outcome.next.injEq]
    constructor
    · rintro ⟨x, ⟨-, rfl⟩, rfl⟩; rfl
    · rintro rfl
      exact ⟨_, ⟨by simpa [hk] using h', rfl⟩, rfl⟩
  · simp [State.memErase, eq_comm]

theorem exec_go_eq_next {s u : State} : exec .go s = .next u ↔
    (s.stage = 0 ∧ s.inputsLoaded = true ∧ u = ((s.setMatch false).setCause 0).setStage 1) ∨
    (s.stage ≠ 0 ∧ u = s) := by
  simp only [exec, execGo, whenIdle_eq_next, ne_eq, ← State.idle_iff, Bool.not_eq_true]
  refine or_congr (and_congr_right fun _ => ?_) Iff.rfl
  split <;> simp_all [next_eq_next, -Host.Outcome.next.injEq]

theorem exec_clr_eq_next {s u : State} : exec .clr s = .next u ↔
    u = if s.stage = 0 ∨ s.stage = 10 ∨ s.stage = 11 then clearBlock s else s := by
  simp only [exec, execClr, ← State.clearable_iff]
  split <;> simp [eq_comm]

/-! ## All meanings at once -/

/-- What an operation that completes does to the state `s`: one constructor an operation, one for the wait stages, and
one for NOP and ignored commands. -/
inductive Effect (s : State) : Instr → State → Prop where
  | waiting {i : Instr} (h : i = .idle ∨ i = .done ∨ i = .fail) : Effect s i s
  | ignored {i : Instr} (h : i.format = .command) : Effect s i s
  | tdiv {t : BitVec 64} (h : s.time = some t) :
      Effect s .tdiv ((s.setCtr (some (timeCounter config t))).setStage 2)
  | tenc {v : BitVec 64} (h : s.ctr = some v) :
      Effect s .tenc ((s.setCh (s.ch.writeBytes 0 (challengeBytes v))).setStage 3)
  | pass {n : Byte} (h : s.klen = some n) (hn : keyLengthOk n = true) : Effect s .kchk (s.setStage 4)
  | raise {n : Byte} (h : s.klen = some n) (hn : keyLengthOk n = false) :
      Effect s .kchk (raiseInvalidSecretLength s)
  | hmac {n : Byte} {key msg : List Byte} (h : s.klen = some n) (hk : s.memRead .key 0 n.toNat = .ok key)
      (hm : s.memRead .ch 0 8 = .ok msg) :
      Effect s .hmac ((s.setDig (s.dig.writeBytes 0 (config.hmacSha1 key msg).toList)).setStage 5)
  | offs {b : Byte} (h : s.readByte .dig 19 = some b) :
      Effect s .offs ((s.setOff (some (offsetOf b))).setStage 6)
  | wasm {o : BitVec 4} {bs : List Byte} (h : s.off = some o) (hb : s.memRead .dig o.toNat 4 = .ok bs) :
      Effect s .wasm ((s.setWin (some (windowOf bs))).setStage 7)
  | msk31 {w : BitVec 32} (h : s.win = some w) :
      Effect s .msk31 ((s.setTh (some (maskWindow w))).setStage 8)
  | modr {x : BitVec 31} (h : s.th = some x) : Effect s .modr ((s.setCode (some (reduceCode x))).setStage 9)
  | vcmp {c : BitVec 20} {d : BitVec 32} (h : s.code = some c) (hd : s.cand = some d) :
      Effect s .vcmp ((s.setMatch (codeMatches c d)).setStage 10)
  | ldt {t : BitVec 64} (h : s.stage = 0) : Effect s (.ldt t) (s.setTime (some t))
  | ldk {len : Byte} {k : List Byte} (h : s.stage = 0) (hk : (loadedKey len k).wf 100 = true) :
      Effect s (.ldk len k) ((s.setKlen (some len)).setKey (loadedKey len k))
  | ldc {c : BitVec 32} (h : s.stage = 0) : Effect s (.ldc c) (s.setCand (some c))
  | go (h : s.stage = 0) (hl : s.inputsLoaded = true) :
      Effect s .go (((s.setMatch false).setCause 0).setStage 1)
  | clr (h : s.stage = 0 ∨ s.stage = 10 ∨ s.stage = 11) : Effect s .clr (clearBlock s)

/-- The one inversion lemma of `exec`: a meaning that answers a next state has had its effect. -/
theorem exec_effect {i : Instr} {s u : State} (h : exec i s = .next u) : Effect s i u := by
  cases i
  case idle => cases h; exact .waiting (by simp)
  case done => cases h; exact .waiting (by simp)
  case fail => cases h; exact .waiting (by simp)
  case nop => cases h; exact .ignored rfl
  case tdiv => obtain ⟨t, ht, rfl⟩ := exec_tdiv_eq_next.1 h; exact .tdiv ht
  case tenc => obtain ⟨v, hv, rfl⟩ := exec_tenc_eq_next.1 h; exact .tenc hv
  case kchk =>
    obtain ⟨n, hn, rfl⟩ := exec_kchk_eq_next.1 h
    split
    · next hk => exact .pass hn hk
    · next hk => exact .raise hn (by simpa using hk)
  case hmac => obtain ⟨n, key, msg, hn, hk, hm, rfl⟩ := exec_hmac_eq_next.1 h; exact .hmac hn hk hm
  case offs => obtain ⟨b, hb, rfl⟩ := exec_offs_eq_next.1 h; exact .offs hb
  case wasm => obtain ⟨o, bs, ho, hb, rfl⟩ := exec_wasm_eq_next.1 h; exact .wasm ho hb
  case msk31 => obtain ⟨w, hw, rfl⟩ := exec_msk31_eq_next.1 h; exact .msk31 hw
  case modr => obtain ⟨x, hx, rfl⟩ := exec_modr_eq_next.1 h; exact .modr hx
  case vcmp => obtain ⟨c, d, hc, hd, rfl⟩ := exec_vcmp_eq_next.1 h; exact .vcmp hc hd
  case ldt t =>
    rcases exec_ldt_eq_next.1 h with ⟨h0, rfl⟩ | ⟨-, rfl⟩
    · exact .ldt h0
    · exact .ignored rfl
  case ldc c =>
    rcases exec_ldc_eq_next.1 h with ⟨h0, rfl⟩ | ⟨-, rfl⟩
    · exact .ldc h0
    · exact .ignored rfl
  case go =>
    rcases exec_go_eq_next.1 h with ⟨h0, hl, rfl⟩ | ⟨-, rfl⟩
    · exact .go h0 hl
    · exact .ignored rfl
  case clr =>
    rw [exec_clr_eq_next] at h
    split at h
    · next hc => subst h; exact .clr hc
    · subst h; exact .ignored rfl
  case ldk len k =>
    simp only [exec, execLdk, whenIdle_eq_next, State.idle_iff] at h
    rcases h with ⟨h0, h⟩ | ⟨-, rfl⟩
    · split at h
      · next hl =>
        simp only [onRead_eq_next, State.memWrite_eq_ok, next_eq_next] at h
        obtain ⟨x, ⟨hb, rfl⟩, rfl⟩ := h
        have hk : loadedKey len k = Memory.writeBytes [] 0 k := if_pos hl
        have := Effect.ldk (len := len) (k := k) h0 (by rw [hk]; exact Memory.wf_writeBytes k rfl hb)
        rwa [hk] at this
      · next hl =>
        have hk : loadedKey len k = [] := if_neg hl
        have := Effect.ldk (len := len) (k := k) h0 (by rw [hk]; rfl)
        rw [hk] at this
        cases h
        exact this
    · exact .ignored rfl

end Sys2Proof.Machine
end

