-- ==== Sys2Proof/Laws/Operands.lean ====
section
/-! SUPPORT. What the stages compute, as numbers. -/

namespace Sys2Proof.Machine

theorem timeCounter_toNat (t : BitVec 64) : (timeCounter config t).toNat = t.toNat / 30 := by
  have := t.isLt
  simp only [timeCounter, config, BitVec.toNat_ofNat]
  omega

/-- The challenge is the counter laid out in 8 bytes (41_time_step_encoder.md R141). -/
theorem challengeBytes_eq (v : BitVec 64) : challengeBytes v = beBytes 8 v.toNat := by
  simp [challengeBytes, challengeLen, beBytes, List.range_succ, beByte64_eq]

theorem keyLengthOk_iff (n : Byte) : keyLengthOk n = true ↔ 1 ≤ n.toNat ∧ n.toNat ≤ 100 := by
  simp only [keyLengthOk, Bool.and_eq_true, decide_eq_true_eq]
  exact Iff.rfl

theorem offsetOf_toNat (b : Byte) : (offsetOf b).toNat = b.toNat % 16 := by
  revert b; decide

theorem windowOf_toNat {bs : List Byte} (h : bs.length = 4) : (windowOf bs).toNat = be bs := by
  match bs, h with
  | [b0, b1, b2, b3], _ => exact beWord_eq_be b0 b1 b2 b3

theorem maskWindow_toNat (w : BitVec 32) : (maskWindow w).toNat = w.toNat % 2 ^ 31 := by
  have hm : ∀ x : Nat, x &&& 2147483647 = x % 2 ^ 31 := fun x => Nat.and_two_pow_sub_one_eq_mod x 31
  simp only [maskWindow, signMask, BitVec.extractLsb'_toNat, BitVec.toNat_and, Nat.shiftRight_zero]
  rw [show BitVec.toNat (2147483647 : BitVec 32) = 2147483647 from rfl, hm, Nat.mod_mod]

theorem reduceCode_toNat (h : BitVec 31) : (reduceCode h).toNat = h.toNat % 1000000 := by
  have := h.isLt
  simp [reduceCode, modulus]
  omega

theorem codeMatches_eq (c : BitVec 20) (d : BitVec 32) : codeMatches c d = decide (c.toNat = d.toNat) := by
  have := c.isLt
  simp only [codeMatches, ← BitVec.toNat_inj, BitVec.toNat_setWidth]
  rw [Nat.mod_eq_of_lt (by omega)]

end Sys2Proof.Machine
end

