-- ==== Sys2Proof/Laws/PerInstr.lean ====
section
/-! SUPPORT. Statements made one lemma per operation. Family `Shape`: an operation is written in its own format, a stage
operation with a code of at most 11 and a host command with a first byte of at most 5 (30_encoding.md R92, R94, R96, R98). -/

namespace Sys2Proof.Laws.Shape

def Statement (i : Instr) : Prop :=
  match encode i with
  | .stage op => i.format = .stage ∧ op.toNat ≤ 11
  | .command bs => i.format = .command ∧ ∃ b rest, bs = b :: rest ∧ b.toNat ≤ 5

theorem idle : Statement .idle := ⟨rfl, by decide⟩
theorem tdiv : Statement .tdiv := ⟨rfl, by decide⟩
theorem tenc : Statement .tenc := ⟨rfl, by decide⟩
theorem kchk : Statement .kchk := ⟨rfl, by decide⟩
theorem hmac : Statement .hmac := ⟨rfl, by decide⟩
theorem offs : Statement .offs := ⟨rfl, by decide⟩
theorem wasm : Statement .wasm := ⟨rfl, by decide⟩
theorem msk31 : Statement .msk31 := ⟨rfl, by decide⟩
theorem modr : Statement .modr := ⟨rfl, by decide⟩
theorem vcmp : Statement .vcmp := ⟨rfl, by decide⟩
theorem done : Statement .done := ⟨rfl, by decide⟩
theorem fail : Statement .fail := ⟨rfl, by decide⟩
theorem nop : Statement .nop := ⟨rfl, _, _, rfl, by decide⟩
theorem ldt (t : BitVec 64) : Statement (.ldt t) := ⟨rfl, _, _, rfl, by decide⟩
theorem ldk (len : Byte) (k : List Byte) : Statement (.ldk len k) := ⟨rfl, _, _, rfl, by decide⟩
theorem ldc (c : BitVec 32) : Statement (.ldc c) := ⟨rfl, _, _, rfl, by decide⟩
theorem go : Statement .go := ⟨rfl, _, _, rfl, by decide⟩
theorem clr : Statement .clr := ⟨rfl, _, _, rfl, by decide⟩

end Sys2Proof.Laws.Shape
end

