-- ==== Sys2Proof/Laws/Step.lean ====
section
/-! SUPPORT. What one step can do: the one inversion lemma of `step`, which every invariant cites. -/

namespace Sys2Proof.Machine

theorem sequencerStep_eq_next {s t : State} :
    sequencerStep s = .next t ↔ ∃ i, decodeStage s.stage = .ok i ∧ exec i s = .next t := by
  unfold sequencerStep
  cases decodeStage s.stage <;> simp

theorem hostStep_eq_next {s t : State} : hostStep s = .next t ↔
    (s.hostIn = [] ∧ t = s) ∨
    ∃ i rest, decodeCommand s.hostIn = .ok (i, rest) ∧ exec i (s.setHostIn rest) = .next t := by
  unfold hostStep
  split
  · next h => simp [h, decodeCommand, eq_comm]
  · next h =>
    cases decodeCommand s.hostIn with
    | error e => simp [h]
    | ok x => obtain ⟨i, rest⟩ := x; simp [h]

/-- A step to a next state is, for some remaining schedule `ts`: the sequencer's operation, or a host command, or nothing
but the schedule, or reset. -/
theorem step_eq_next_cases {s t : State} (h : step s = .next t) :
    ∃ ts, (∃ i, decodeStage s.stage = .ok i ∧ exec i (s.setTurns ts) = .next t) ∨
      (∃ i rest, decodeCommand s.hostIn = .ok (i, rest) ∧ exec i ((s.setTurns ts).setHostIn rest) = .next t) ∨
      t = s.setTurns ts ∨ (s.turns = .reset :: ts ∧ t = clearBlock (s.setTurns ts)) := by
  unfold step at h
  split at h
  · refine ⟨s.turns, ?_⟩
    simp only [State.setTurns_self]
    unfold defaultStep at h
    split at h
    · rcases hostStep_eq_next.1 h with ⟨-, rfl⟩ | h
      · exact .inr (.inr (.inl rfl))
      · exact .inr (.inl h)
    · exact .inl (sequencerStep_eq_next.1 h)
  · next tn ts hts =>
    unfold turnStep at h
    split at h
    · exact ⟨ts, .inl (sequencerStep_eq_next.1 h)⟩
    · rcases hostStep_eq_next.1 h with ⟨-, rfl⟩ | h
      · exact ⟨ts, .inr (.inr (.inl rfl))⟩
      · exact ⟨ts, .inr (.inl h)⟩
    · split at h
      · exact ⟨.wait :: ts, .inl (sequencerStep_eq_next.1 h)⟩
      · exact ⟨ts, .inr (.inr (.inl (by simpa [eq_comm] using h)))⟩
    · exact ⟨ts, .inr (.inr (.inl (by simpa [eq_comm] using h)))⟩
    · unfold sampleCodeStep at h
      split at h
      · exact ⟨ts, .inr (.inr (.inl (by simpa [eq_comm] using h)))⟩
      · simp at h
    · exact ⟨ts, .inr (.inr (.inr ⟨hts, by simpa [eq_comm] using h⟩))⟩

/-- With no turn scheduled, a busy block's step is the sequencer's. -/
theorem step_busy {s : State} (ht : s.turns = []) (hb : s.busy = true) : step s = sequencerStep s := by
  simp [step, ht, defaultStep, hb]

end Sys2Proof.Machine
end

