-- ==== Sys2Proof/Laws/Run.lean ====
section
/-! SUPPORT. Runs of several steps, and the sequencer's step at a known stage. -/

namespace Sys2Proof.Machine

@[simp] theorem runSteps_zero (s : State) : runSteps 0 s = .next s := rfl

theorem runSteps_succ {n : Nat} {s u : State} (h : step s = .next u) : runSteps (n + 1) s = runSteps n u := by
  simp [runSteps, h]

/-- A run that goes on after a run. -/
theorem runSteps_add {a : Nat} (b : Nat) {s u : State} (h : runSteps a s = .next u) :
    runSteps (a + b) s = runSteps b u := by
  induction a generalizing s with
  | zero => cases h; simp
  | succ a ih =>
    rw [show a + 1 + b = a + b + 1 by omega]
    simp only [runSteps] at h ⊢
    cases hs : step s with
    | next s' => rw [hs] at h; exact ih h
    | fault f => rw [hs] at h; cases h
    | refused r => rw [hs] at h; cases h

/-- At a known stage the sequencer performs the operation of that code. -/
theorem sequencerStep_at {s : State} {v : BitVec 4} {i : Instr} (h : s.stage = v) (hd : decodeStage v = .ok i) :
    sequencerStep s = exec i s := by
  unfold sequencerStep
  rw [h, hd]

end Sys2Proof.Machine
end

