-- ==== Sys2Proof/Tests/Slice0.lean ====
section
/-! SUPPORT. Tests: ill-formed terms refused, words written out from the spec's encodings, one step of each operation on
the spec's vectors, and for every obligation with hypotheses a concrete case that meets them. Expected values are those of
95_test_vectors.md (V), 44_hmac_sha1_reference.md (R180) and 30_encoding.md. -/

namespace Sys2Proof.Tests

open Sys2Proof Sys2Proof.Machine

/-! ## Helpers -/

/-- The next state, if there is one. -/
def nextOf : Result → Option State
  | .next s => some s
  | .fault _ => none
  | .refused _ => none

/-- Something of the next state. -/
def nextIs {α : Type} [DecidableEq α] (r : Result) (f : State → α) (x : α) : Bool := decide ((nextOf r).map f = some x)

/-- A digest buffer. -/
def digOf (bs : List Byte) : Memory := Memory.writeBytes [] 0 bs

/-- The inputs loaded, as LDT, LDK and LDC leave them, and STAGE 1, as GO leaves it. -/
def stage1 (t : BitVec 64) (len : Byte) (k : List Byte) (c : BitVec 32) : State :=
  { State.reset with
    stage := 1, time := some t, klen := some len, key := loadedKey len k, cand := some c }

/-- The state two steps later for the time 59: CTR 1 and its challenge. -/
def stage3 (len : Byte) (k : List Byte) (c : BitVec 32) : State :=
  { stage1 59 len k c with
    stage := 3, ctr := some 1, ch := [(0, 0), (1, 0), (2, 0), (3, 0), (4, 0), (5, 0), (6, 0), (7, 1)] }

/-- ASCII 12345678901234567890. -/
def asciiKey : List Byte :=
  [0x31, 0x32, 0x33, 0x34, 0x35, 0x36, 0x37, 0x38, 0x39, 0x30] ++
  [0x31, 0x32, 0x33, 0x34, 0x35, 0x36, 0x37, 0x38, 0x39, 0x30]

/-- The bytes of DIG. -/
def digBytes (s : State) : List (Option Byte) := (List.range 20).map (s.readByte .dig)

/-! ## WellFormed: the one check refuses an ill-formed term -/

theorem test_ldk_too_few_bytes_ill_formed : (Instr.ldk 3 [0xaa, 0xbb]).wf = false := by decide
theorem test_ldk_too_many_bytes_ill_formed : (Instr.ldk 0 [0xaa]).wf = false := by decide
theorem test_config_step_zero_refused (h : List Byte → List Byte → Vector Byte 20) : Config.make 0 h = none := rfl

/-! ## Decoding: words written out from 30_encoding.md R92, R96, R97 (V1 to V9h) -/

theorem test_decode_idle : decodeStage 0b0000 = .ok .idle := by decide
theorem test_decode_tdiv : decodeStage 0b0001 = .ok .tdiv := by decide
theorem test_decode_tenc : decodeStage 0b0010 = .ok .tenc := by decide
theorem test_decode_kchk : decodeStage 0b0011 = .ok .kchk := by decide
theorem test_decode_hmac : decodeStage 0b0100 = .ok .hmac := by decide
theorem test_decode_offs : decodeStage 0b0101 = .ok .offs := by decide
theorem test_decode_wasm : decodeStage 0b0110 = .ok .wasm := by decide
theorem test_decode_msk31 : decodeStage 0b0111 = .ok .msk31 := by decide
theorem test_decode_modr : decodeStage 0b1000 = .ok .modr := by decide
theorem test_decode_vcmp : decodeStage 0b1001 = .ok .vcmp := by decide
theorem test_decode_done : decodeStage 0b1010 = .ok .done := by decide
theorem test_decode_fail : decodeStage 0b1011 = .ok .fail := by decide
theorem test_decode_stage_12_to_15_reserved :
    [0b1100, 0b1101, 0b1110, 0b1111].all (fun op => decodeStage op = .error (.reservedStage op)) = true := by decide

theorem test_decode_nop : decodeCommand [0x00] = .ok (.nop, []) := by decide
theorem test_decode_ldt : decodeCommand [0x01, 0x00, 0x00, 0x00, 0x00, 0x00, 0x00, 0x00, 0x3b] = .ok (.ldt 59, []) := by
  decide
theorem test_decode_ldt_byte_order :
    decodeCommand [0x01, 0x01, 0x02, 0x03, 0x04, 0x05, 0x06, 0x07, 0x08, 0x04] = .ok (.ldt 0x0102030405060708, [0x04]) := by
  decide
theorem test_decode_ldk : decodeCommand [0x02, 0x01, 0x00] = .ok (.ldk 1 [0x00], []) := by decide
theorem test_decode_ldk_over_100 :
    decodeCommand (0x02 :: 0x65 :: (List.replicate 101 0xaa ++ [0x05])) = .ok (.ldk 101 (List.replicate 101 0xaa), [0x05]) := by
  decide
theorem test_decode_ldc : decodeCommand [0x03, 0x00, 0x0f, 0x42, 0x3f] = .ok (.ldc 999999, []) := by decide
theorem test_decode_go : decodeCommand [0x04] = .ok (.go, []) := by decide
theorem test_decode_clr : decodeCommand [0x05] = .ok (.clr, []) := by decide
theorem test_decode_reserved_06 : decodeStream [0x06] = .error { at_ := 0, why := .reservedCommand 0x06 } := by decide
theorem test_decode_reserved_84 : decodeStream [0x00, 0x84] = .error { at_ := 1, why := .reservedCommand 0x84 } := by decide
theorem test_decode_truncated : decodeStream [0x01, 0x00, 0x00] = .error { at_ := 0, why := .truncated 0x01 } := by decide

/-- The 37 bytes of program P1. -/
theorem test_decode_program_p1 :
    decodeStream ([0x02, 0x14] ++ asciiKey ++ [0x01, 0x00, 0x00, 0x00, 0x00, 0x00, 0x00, 0x00, 0x3b] ++
      [0x03, 0x00, 0x04, 0x61, 0x6a, 0x04]) = .ok [.ldk 20 asciiKey, .ldt 59, .ldc 287082, .go] := by decide

theorem test_table_word_stage : decodeTableWord 4 0x6 = some .wasm := by decide
theorem test_table_word_command : decodeTableWord 72 0x3b0000000000000001 = some (.ldt 59) := by decide +kernel
theorem test_fetch_word_stage : step (State.reset.withFetchWord 4 0xA) = exec .done { State.reset with stage := 10 } := rfl
theorem test_fetch_word_command :
    nextIs (step (State.reset.withFetchWord 40 0x3f420f0003)) State.cand (some 999999) = true := by decide +kernel

/-! ## Scripts (30_encoding.md R100) -/

theorem test_script_line_ldk :
    parseLine ['L', 'D', 'K', ' ', '4', '8', '6', '5', ' ', ';', ' ', 'x'] = some [.command (.ldk 2 [0x48, 0x65])] := by decide
theorem test_script_line_repeat :
    parseLine ['L', 'D', 'K', ' ', '3', '*', 'a', 'a'] = some [.command (.ldk 3 [0xaa, 0xaa, 0xaa])] := by decide
theorem test_script_text :
    parseScript ['L', 'D', 'C', ' ', '0', 'x', '1', '0', '\n', 'G', 'O', '\n', 'W', 'A', 'I', 'T', '\n', 'R', 'D'] =
      some [.command (.ldc 16), .command .go, .wait, .rd] := by decide

/-! ## One step of each operation -/

theorem test_idle_waits : exec .idle State.reset = .next State.reset := rfl
theorem test_done_waits (s : State) : exec .done s = .next s := rfl
theorem test_fail_waits (s : State) : exec .fail s = .next s := rfl
theorem test_nop : exec .nop (stage3 0 [] 0) = .next (stage3 0 [] 0) := rfl

/-- V3. -/
theorem test_ldt_in_idle :
    nextIs (exec (.ldt 18446744073709551615) State.reset) State.time (some 0xFFFFFFFFFFFFFFFF) = true := by decide
/-- V4. -/
theorem test_ldt_in_done : nextIs (exec (.ldt 59) (State.reset.setStage 10)) State.time none = true := by decide
/-- V6: a byte loaded before is gone. -/
theorem test_ldk_stores :
    nextIs (exec (.ldk 1 [0x00]) (State.reset.setKey [(5, 0x77)])) (fun s => (s.klen, s.key)) (some 1, [(0, 0x00)]) = true := by
  decide
/-- V7. -/
theorem test_ldk_over_100_stores_nothing :
    nextIs (exec (.ldk 101 (List.replicate 101 0xaa)) (State.reset.setKey [(5, 0x77)])) (fun s => (s.klen, s.key))
      (some 101, []) = true := by decide
/-- V8, V9. -/
theorem test_ldc_999999 : nextIs (exec (.ldc 999999) State.reset) State.cand (some 0x000F423F) = true := by decide
theorem test_ldc_all_ones : nextIs (exec (.ldc 4294967295) State.reset) State.cand (some 0xFFFFFFFF) = true := by decide
/-- V9a, V9b. -/
theorem test_go_loaded :
    nextIs (exec .go ((stage1 59 0 [] 0).setStage 0)) (fun s => (s.stage, s.matchFlag, s.cause)) (1, false, 0) = true := by
  decide
theorem test_go_not_loaded :
    exec .go { State.reset with time := some 59, klen := some 0 } = .refused .goBeforeLoad := rfl
/-- V9d, V9e. -/
theorem test_clr_while_busy :
    exec .clr { State.reset with stage := 5, klen := some 1 } = .next { State.reset with stage := 5, klen := some 1 } := rfl
theorem test_clr_in_fail :
    exec .clr { stage3 0 [] 7 with stage := 11, cause := 1 } = .next State.reset := rfl
/-- V13, V19. -/
theorem test_tdiv_59 : nextIs (exec .tdiv (stage1 59 0 [] 0)) (fun s => (s.ctr, s.stage)) (some 1, 2) = true := by decide
theorem test_tdiv_largest :
    nextIs (exec .tdiv (stage1 18446744073709551615 0 [] 0)) State.ctr (some 614891469123651720) = true := by decide
/-- V22. -/
theorem test_tenc_byte_order :
    nextIs (exec .tenc { State.reset with stage := 2, ctr := some 0x0102030405060708 }) (fun s => (s.ch, s.stage))
      ([(0, 1), (1, 2), (2, 3), (3, 4), (4, 5), (5, 6), (6, 7), (7, 8)], 3) = true := by decide
/-- V26, V27, V28. -/
theorem test_kchk_passes :
    [1, 64, 100].all (fun n => nextIs (exec .kchk { State.reset with stage := 3, klen := some n })
      (fun s => (s.stage, s.cause, s.matchFlag)) (4, 0, false)) = true := by decide
/-- V25, V29, V29a. -/
theorem test_kchk_raises :
    [0, 101, 255].all (fun n => nextIs (exec .kchk { State.reset with stage := 3, klen := some n })
      (fun s => (s.stage, s.cause, s.matchFlag)) (11, 1, false)) = true := by decide
/-- V30. -/
theorem test_hmac_rfc_key :
    nextIs (exec .hmac { stage3 20 asciiKey 0 with stage := 4 }) digBytes
      ([0x75, 0xa4, 0x8a, 0x19, 0xd4, 0xcb, 0xe1, 0x00, 0x64, 0x4e, 0x8a, 0xc1, 0x39, 0x7e, 0xea, 0x74, 0x7a, 0x2d, 0x33,
        0xab].map some) = true := by decide +kernel
/-- V35: a key of 65 bytes is hashed first. -/
theorem test_hmac_long_key :
    nextIs (exec .hmac { stage3 65 ((List.range 65).map (BitVec.ofNat 8)) 0 with
        stage := 4, ch := (List.range 8).map (fun i => (i, 0)) }) digBytes
      ([0xad, 0x4e, 0x7a, 0xfa, 0x7e, 0x1e, 0xb6, 0x62, 0x5c, 0xa4, 0x8b, 0x39, 0xcd, 0x64, 0xa3, 0xfc, 0x31, 0x2d, 0x08,
        0x7a].map some) = true := by decide +kernel
/-- V44. -/
theorem test_offs_ignores_high_nibble :
    nextIs (exec .offs { State.reset with stage := 5, dig := digOf (List.replicate 19 0x10 ++ [0xf0]) })
      (fun s => (s.off, s.stage)) (some 0, 6) = true := by decide
/-- V41. -/
theorem test_offs_largest :
    nextIs (exec .offs { State.reset with stage := 5, dig := digOf (List.replicate 20 0xff) }) State.off (some 15) = true := by
  decide
/-- V46. -/
theorem test_wasm_at_offset_15 :
    nextIs (exec .wasm { State.reset with
        stage := 6, off := some 15, dig := digOf (List.replicate 15 0 ++ [0x80, 0x0f, 0x42, 0x3f, 0x0f]) })
      (fun s => (s.win, s.stage)) (some 0x800F423F, 7) = true := by decide
/-- V43. -/
theorem test_wasm_byte_order :
    nextIs (exec .wasm { State.reset with
        stage := 6, off := some 3, dig := digOf ((List.range 20).map (BitVec.ofNat 8)) }) State.win
      (some 0x03040506) = true := by decide
/-- V41, V47. -/
theorem test_msk31_all_ones :
    nextIs (exec .msk31 { State.reset with stage := 7, win := some 0xFFFFFFFF }) (fun s => (s.th, s.stage))
      (some 0x7FFFFFFF, 8) = true := by decide
theorem test_msk31_only_top_bit :
    nextIs (exec .msk31 { State.reset with stage := 7, win := some 0x80000000 }) State.th (some 0) = true := by decide
/-- V41, V45. -/
theorem test_modr_largest :
    nextIs (exec .modr { State.reset with stage := 8, th := some 2147483647 }) (fun s => (s.code, s.stage))
      (some 483647, 9) = true := by decide
theorem test_modr_wraps_to_zero :
    nextIs (exec .modr { State.reset with stage := 8, th := some 1000000 }) State.code (some 0) = true := by decide
/-- V50. -/
theorem test_vcmp_equal :
    nextIs (exec .vcmp { State.reset with stage := 9, code := some 287082, cand := some 287082 })
      (fun s => (s.matchFlag, s.stage)) (true, 10) = true := by decide
/-- V55: the low 20 bits are equal. -/
theorem test_vcmp_all_bits :
    nextIs (exec .vcmp { State.reset with stage := 9, code := some 287082, cand := some 1335658 }) State.matchFlag
      false = true := by decide

/-! ## SHA-1 (R180) -/

theorem test_sha1_empty : (Sha1.sha1 []).toList =
    [0xda, 0x39, 0xa3, 0xee, 0x5e, 0x6b, 0x4b, 0x0d, 0x32, 0x55, 0xbf, 0xef, 0x95, 0x60, 0x18, 0x90, 0xaf, 0xd8, 0x07,
     0x09] := by decide +kernel
theorem test_sha1_abc : (Sha1.sha1 [0x61, 0x62, 0x63]).toList =
    [0xa9, 0x99, 0x3e, 0x36, 0x47, 0x06, 0x81, 0x6a, 0xba, 0x3e, 0x25, 0x71, 0x78, 0x50, 0xc2, 0x6c, 0x9c, 0xd0, 0xd8,
     0x9d] := by decide +kernel

/-! ## Witnesses: a concrete case for the hypotheses of every obligation that has some -/

theorem witness_DecodeInvertsEncode :
    (Instr.ldk 0 []).wf = true ∧ (Instr.ldk 255 (List.replicate 255 0x5a)).wf = true ∧ Instr.fail.wf = true := by decide +kernel

theorem witness_StreamOfCommandsDecodes :
    ∀ i ∈ [Instr.ldk 1 [0x5a], .ldt 59, .ldc 7, .nop, .go, .clr], i.wf = true ∧ i.format = .command := by decide

theorem witness_DecodedWordsReencode :
    decodeCommand [0x02, 0x01, 0x5a, 0x04] = .ok (.ldk 1 [0x5a], [0x04]) ∧ decodeStage 11 = .ok .fail := by decide

theorem witness_PayloadsAreBigEndian :
    ([] : List Byte).length = (0 : Byte).toNat ∧ (List.replicate 255 (0x5a : Byte)).length = (255 : Byte).toNat := by decide +kernel

theorem witness_ReservedBytesAndCutStreamsRefused :
    (6 ≤ (6 : Byte).toNat ∧ 6 ≤ (255 : Byte).toNat ∧ ∀ i ∈ [Instr.nop], i.wf = true ∧ i.format = .command) ∧
    (∃ (i : Instr) (n : Nat), i.wf = true ∧ i.format = .command ∧ 0 < n ∧ n < (commandBytes i).length ∧ n = 1) ∧
    (∃ (i : Instr) (n : Nat), i.wf = true ∧ i.format = .command ∧ 0 < n ∧ n < (commandBytes i).length ∧ n = 8) ∧
    (∃ (s : State) (ts : List Turn) (e : DecodeError), s.turns = .host :: ts ∧ s.hostIn ≠ [] ∧
      decodeCommand s.hostIn = .error e) :=
  ⟨by decide, ⟨.ldt 59, 1, by decide⟩, ⟨.ldt 59, 8, by decide⟩,
    { State.reset with hostIn := [6], turns := [.host] }, [], .reservedCommand 6, by decide⟩

theorem witness_StageDecoderIsTotal :
    12 ≤ (12 : BitVec 4).toNat ∧ 12 ≤ (15 : BitVec 4).toNat ∧ (0 : BitVec 4).toNat ≤ 11 ∧ (11 : BitVec 4).toNat ≤ 11 := by
  decide

/-- One state for each of the five clauses. -/
theorem witness_StepRunsDecodedInstruction :
    (∃ (s : State) (ts : List Turn) (i : Instr), s.turns = .sequencer :: ts ∧ decodeStage s.stage = .ok i) ∧
    (∃ (s : State) (ts : List Turn) (i : Instr) (rest : List Byte), s.turns = .host :: ts ∧
      decodeCommand s.hostIn = .ok (i, rest)) ∧
    (∃ (s : State) (i : Instr), s.turns = [] ∧ s.busy = true ∧ decodeStage s.stage = .ok i) ∧
    (∃ (s : State) (i : Instr) (rest : List Byte), s.turns = [] ∧ s.busy = false ∧
      decodeCommand s.hostIn = .ok (i, rest)) ∧
    (∃ (s : State) (i : Instr), s.turns = [] ∧ s.busy = false ∧ s.hostIn = [] ∧ decodeStage s.stage = .ok i) :=
  ⟨⟨(stage1 59 0 [] 0).setTurns [.sequencer], [], .tdiv, by decide⟩,
    ⟨{ State.reset with hostIn := [4], turns := [.host] }, [], .go, [], by decide⟩, ⟨stage1 59 0 [] 0, .tdiv, by decide⟩,
    ⟨State.reset.setHostIn [0], .nop, [], by decide⟩, State.reset, .idle, by decide⟩

theorem witness_WaitAndObservationTurns :
    (∃ (s : State) (ts : List Turn) (i : Instr), s.turns = .wait :: ts ∧ s.busy = true ∧ decodeStage s.stage = .ok i) ∧
    (∃ (s : State) (ts : List Turn), s.turns = .wait :: ts ∧ s.busy = false) ∧
    (∃ (s : State) (ts : List Turn), s.turns = .observe :: ts) ∧
    (∃ (s : State) (ts : List Turn), s.turns = .sampleCode :: ts ∧ s.stage = 10) ∧
    (∃ (s : State) (ts : List Turn), s.turns = .sampleCode :: ts ∧ s.stage ≠ 10) :=
  ⟨⟨(stage3 0 [] 0).setTurns [.wait], [], .kchk, by decide⟩, ⟨State.reset.setTurns [.wait], [], by decide⟩,
    ⟨State.reset.setTurns [.observe], [], rfl⟩, ⟨(State.reset.setStage 10).setTurns [.sampleCode], [], by decide⟩,
    (State.reset.setStage 11).setTurns [.sampleCode], [], by decide⟩

theorem witness_ReservedStageIsStuck :
    (∃ (s : State) (i : Instr) (ts : List Turn), 12 ≤ s.stage.toNat ∧ s.stage = 12 ∧ i.wf = true ∧ i.format = .command ∧
      s.turns = .reset :: ts) ∧
    (∃ (s : State), 12 ≤ s.stage.toNat ∧ s.stage = 15) ∧
    (∃ s u : State, s.stage.toNat ≤ 11 ∧ step s = .next u) :=
  ⟨⟨(State.reset.setStage 12).setTurns [.reset], .clr, [], by decide⟩, ⟨State.reset.setStage 15, by decide⟩,
    State.reset.setStage 11, State.reset.setStage 11, by decide, rfl⟩

theorem witness_ResetEventErasesBlock : ((stage3 0 [] 0).setTurns [.reset]).turns = .reset :: [] := rfl

theorem witness_ResetStateValues :
    (State.reset.setStage 0).stage = 0 ∧ (State.reset.setStage 10).stage = 10 ∧ (State.reset.setStage 11).stage = 11 := by
  decide

/-- STAGE on both sides of the condition: 0, and 1 and 15. -/
theorem witness_LdtLoadsTime :
    State.reset.stage = 0 ∧ (State.reset.setStage 1).stage ≠ 0 ∧ (State.reset.setStage 15).stage ≠ 0 := by decide

theorem witness_LdcLoadsCandidate :
    State.reset.stage = 0 ∧ (State.reset.setStage 1).stage ≠ 0 ∧ (State.reset.setStage 10).stage ≠ 0 := by decide

theorem witness_LdkLoadsKey :
    ([] : List Byte).length = (0 : Byte).toNat ∧ (List.replicate 100 (1 : Byte)).length = (100 : Byte).toNat ∧
    (List.replicate 101 (1 : Byte)).length = (101 : Byte).toNat ∧ (List.replicate 255 (1 : Byte)).length = (255 : Byte).toNat := by
  decide +kernel

theorem witness_GoStartsTransaction :
    (∃ (s : State) (t : BitVec 64) (n : Byte) (c : BitVec 32), s.stage = 0 ∧ s.time = some t ∧ s.klen = some n ∧
      s.cand = some c) ∧
    (∃ s : State, s.stage = 0 ∧ s.time.isSome = true ∧ s.klen.isSome = true ∧ s.cand = none) ∧
    (∃ s : State, s.stage = 0 ∧ s.time = none) ∧ (∃ s : State, s.stage = 0 ∧ s.klen = none) ∧
    (∃ s : State, s.stage ≠ 0) :=
  ⟨⟨(stage1 59 0 [] 7).setStage 0, 59, 0, 7, by decide⟩, ⟨{ State.reset with time := some 0, klen := some 0 }, by decide⟩,
    ⟨State.reset, by decide⟩, ⟨State.reset, by decide⟩, State.reset.setStage 1, by decide⟩

theorem witness_ClrErasesBlock :
    (State.reset.setStage 10).stage = 10 ∧ (State.reset.setStage 11).stage = 11 ∧
    ((State.reset.setStage 5).stage ≠ 0 ∧ (State.reset.setStage 5).stage ≠ 10 ∧ (State.reset.setStage 5).stage ≠ 11) ∧
    ((State.reset.setStage 12).stage ≠ 0 ∧ (State.reset.setStage 12).stage ≠ 10 ∧ (State.reset.setStage 12).stage ≠ 11) := by
  decide

theorem witness_TdivDividesTime :
    (∃ (s : State) (t : BitVec 64), s.time = some t ∧ t = 0) ∧
    (∀ n ∈ [1, 30, 2 ^ 64 - 1], ∃ (c : Config) (s : State) (t : BitVec 64), c.stepSize = n ∧ c.wf = true ∧
      s.time = some t) :=
  ⟨⟨stage1 0 0 [] 0, 0, rfl, rfl⟩, fun n hn =>
    ⟨{ stepSize := n, hmacSha1 := Sha1.hmacSha1 }, stage1 (-1) 0 [] 0, -1, rfl, by
      revert n
      decide, rfl⟩⟩

theorem witness_TencSerialisesCounter : (stage3 0 [] 0).ctr = some 1 := rfl

/-- Both clauses, at 1, 100, 0, 101 and 255. -/
theorem witness_KchkChecksLength :
    (stage3 1 [0x5a] 0).klen = some 1 ∧ (1 ≤ (1 : Byte).toNat ∧ (1 : Byte).toNat ≤ 100) ∧
    (1 ≤ (100 : Byte).toNat ∧ (100 : Byte).toNat ≤ 100) ∧ (0 : Byte).toNat = 0 ∧ 101 ≤ (101 : Byte).toNat ∧
    101 ≤ (255 : Byte).toNat := by decide

theorem witness_HmacLatchesDigest :
    (stage3 20 asciiKey 0).klen = some 20 ∧ (20 : Byte).toNat ≤ 100 ∧ asciiKey.length = (20 : Byte).toNat ∧
    (∀ i < (20 : Byte).toNat, (stage3 20 asciiKey 0).readByte .key i = asciiKey[i]?) ∧
    ([0, 0, 0, 0, 0, 0, 0, 1] : List Byte).length = 8 ∧
    (∀ i < 8, (stage3 20 asciiKey 0).readByte .ch i = ([0, 0, 0, 0, 0, 0, 0, 1] : List Byte)[i]?) := by decide

theorem witness_OffsSelectsLowNibble :
    (State.reset.setDig (digOf (List.replicate 20 0xff))).readByte .dig 19 = some 0xff := by decide

/-- At the least and the greatest offset. -/
theorem witness_WasmAssemblesWindow :
    ∀ o ∈ [(0 : BitVec 4), 15], ∃ (s : State) (b0 b1 b2 b3 : Byte), s.off = some o ∧ s.readByte .dig o.toNat = some b0 ∧
      s.readByte .dig (o.toNat + 1) = some b1 ∧ s.readByte .dig (o.toNat + 2) = some b2 ∧
      s.readByte .dig (o.toNat + 3) = some b3 :=
  fun o ho => ⟨{ State.reset with off := some o, dig := digOf (List.replicate 20 0xff) }, 0xff, 0xff, 0xff, 0xff, rfl, by
    revert o
    decide⟩

theorem witness_Msk31ClearsTopBit : (State.reset.setWin (some 0x80000000)).win = some 0x80000000 := rfl
theorem witness_ModrReducesModulo : (State.reset.setTh (some 1000000)).th = some 1000000 := rfl
theorem witness_VcmpComparesAllBits :
    ((State.reset.setCode (some 7)).setCand (some 7)).code = some 7 ∧
    ((State.reset.setCode (some 7)).setCand (some 7)).cand = some 7 := by decide

/-! The invariant holds of a state at stage 1 and of one at stage 3, for every key -/

theorem inv_stage1 (t : BitVec 64) (len : Byte) (k : List Byte) (c : BitVec 32) (hk : k.length = len.toNat) :
    BlockInvariant (stage1 t len k c) where
  rule := by
    constructor
    case loaded =>
      refine fun _ => ⟨rfl, rfl, rfl, fun n hn h i hi => ?_⟩
      cases hn
      exact (loadedKey_isSome hk i).2 ⟨h, hi⟩
    case running => exact fun _ _ => ⟨rfl, rfl⟩
    all_goals simp [stage1]
  canonical := by
    refine ⟨?_, rfl, rfl⟩
    simp only [stage1, loadedKey]
    split
    · next h =>
      have h' : len.toNat ≤ 100 := h
      exact Memory.wf_writeBytes k rfl (by omega)
    · rfl
  keyUnloaded := by simp [stage1]
  keyLoaded := by
    intro n hn i
    cases hn
    exact loadedKey_isSome hk i
  ctrLater _ := rfl
  chLater _ := rfl
  digLater _ := rfl
  offLater _ := rfl
  winLater _ := rfl
  thLater _ := rfl
  codeLater _ := rfl

theorem inv_stage3 (len : Byte) (k : List Byte) (c : BitVec 32) (hk : k.length = len.toNat) :
    BlockInvariant (stage3 len k c) where
  rule := by
    constructor
    case loaded =>
      refine fun _ => ⟨rfl, rfl, rfl, fun n hn h i hi => ?_⟩
      cases hn
      exact (loadedKey_isSome hk i).2 ⟨h, hi⟩
    case running => exact fun _ _ => ⟨rfl, rfl⟩
    case counter => exact fun _ => ⟨59, 1, rfl, rfl, rfl⟩
    case challenge => exact fun _ => ⟨1, rfl, by simp only [State.readByte, State.buffer, stage3]; decide⟩
    all_goals simp [stage3]
  canonical := by
    refine ⟨(inv_stage1 59 len k c hk).canonical.1, ?_, rfl⟩
    simp only [stage3]
    decide
  keyUnloaded := by simp [stage3, stage1]
  keyLoaded := by
    intro n hn i
    cases hn
    exact loadedKey_isSome hk i
  ctrLater h := by simp [stage3] at h
  chLater h := by simp [stage3] at h
  digLater _ := rfl
  offLater _ := rfl
  winLater _ := rfl
  thLater _ := rfl
  codeLater _ := rfl

/-- At 0, 101 and 255. -/
theorem witness_ExceptionEntryIsPrecise :
    BlockInvariant (stage3 0 [] 7) ∧ BlockInvariant (stage3 101 (List.replicate 101 1) 7) ∧
    BlockInvariant (stage3 255 (List.replicate 255 1) 7) ∧ (stage3 0 [] 7).stage = 3 ∧ (stage3 0 [] 7).klen = some 0 ∧
    (0 : Byte).toNat = 0 ∧ 101 ≤ (101 : Byte).toNat :=
  ⟨inv_stage3 _ _ _ rfl, inv_stage3 _ _ _ List.length_replicate, inv_stage3 _ _ _ List.length_replicate, rfl, rfl, rfl, by decide⟩

theorem witness_AcceptanceByStage :
    (∃ (i : Instr) (s : State), i.wf = true ∧ i.format = .command ∧ accepted i s = true ∧ i = .go) ∧
    (∃ (i : Instr) (s : State), i.wf = true ∧ i.format = .command ∧ accepted i s = false ∧ ¬(i = .go ∧ s.stage = 0)) ∧
    (∃ (i : Instr) (s : State), i.wf = true ∧ i.format = .command ∧ accepted i s = false ∧ i = .go ∧ s.stage = 0) :=
  ⟨⟨.go, (stage1 59 0 [] 7).setStage 0, by decide⟩, ⟨.clr, State.reset.setStage 9, by decide⟩, .go, State.reset, by decide⟩

theorem witness_UnwrittenReadsFault :
    State.reset.time = none ∧ State.reset.ctr = none ∧ State.reset.klen = none ∧
    ((State.reset.setKlen (some 1)).klen = some 1 ∧ (1 : Byte).toNat ≤ 100 ∧ 0 < (1 : Byte).toNat ∧
      (State.reset.setKlen (some 1)).readByte .key 0 = none) ∧
    (∀ n ∈ [(0 : Byte), 1], ∃ s : State, s.klen = some n ∧ n.toNat ≤ 100 ∧
      (∀ a < n.toNat, (s.readByte .key a).isSome = true) ∧ 7 < 8 ∧ s.readByte .ch 7 = none ∧
      s.readByte .ch 0 = some 0) ∧
    State.reset.readByte .dig 19 = none ∧ State.reset.off = none ∧
    ((State.reset.setOff (some 15)).off = some 15 ∧ 3 < 4 ∧
      (State.reset.setOff (some 15)).readByte .dig ((15 : BitVec 4).toNat + 3) = none) ∧
    State.reset.win = none ∧ State.reset.th = none ∧ State.reset.code = none ∧
    ((State.reset.setCode (some 7)).code = some 7 ∧ (State.reset.setCode (some 7)).cand = none) := by
  refine ⟨rfl, rfl, rfl, by decide, fun n hn => ?_, by decide⟩
  refine ⟨{ stage1 59 n (List.replicate n.toNat 1) 7 with ch := [(0, 0)] }, rfl, ?_⟩
  revert n
  decide

theorem witness_RegisterOperationsStoreNothing :
    exec .tdiv (stage1 59 0 [] 0) = .next (((stage1 59 0 [] 0).setCtr (some 1)).setStage 2) := rfl

theorem witness_OperationsKeepAgentsAndInputs :
    exec .kchk (stage3 0 [] 7) = .next (raiseInvalidSecretLength (stage3 0 [] 7)) ∧ Instr.kchk.format = .stage := ⟨rfl, rfl⟩

theorem witness_OnlyListedItemsChange :
    exec .kchk (stage3 0 [] 7) = .next (raiseInvalidSecretLength (stage3 0 [] 7)) ∧ Item.key ∉ writtenItems .kchk ∧
    exec .tdiv (stage1 59 0 [] 0) = .next (((stage1 59 0 [] 0).setCtr (some 1)).setStage 2) ∧
    Item.cand ∉ writtenItems .tdiv := ⟨rfl, by decide, rfl, by decide⟩

/-- KCHK on two states that differ in the time, the candidate and the counter. -/
theorem witness_OnlyListedItemsAreRead :
    Instr.kchk.format = .stage ∧ (∀ x ∈ readItems .kchk, SameItem (stage3 0 [] 7) (stage1 1000 0 [] 8) x) ∧
    exec .kchk (stage3 0 [] 7) = .next (raiseInvalidSecretLength (stage3 0 [] 7)) ∧
    ((stage1 1000 0 [] 8).cause = (stage3 0 [] 7).cause ∧ (stage1 1000 0 [] 8).matchFlag = (stage3 0 [] 7).matchFlag) := by
  refine ⟨rfl, fun x hx => ?_, rfl, rfl, rfl⟩
  cases (List.mem_singleton.1 hx : x = .klen)
  rfl

/-- At the bounds of the stored ranges: index 8 of CH, index 20 of DIG, and another space. -/
theorem witness_StoringOperationsFrame :
    exec .tenc (stage3 0 [] 7) = .next (stage3 0 [] 7) ∧ ¬(Space.ch = .ch ∧ 8 < challengeLen) ∧
    ¬(Space.key = .ch ∧ 0 < challengeLen) ∧ ¬(Space.dig = .dig ∧ 20 < digestLen) ∧
    (∃ u, exec .hmac { stage3 1 [0x5a] 7 with stage := 4 } = .next u) ∧
    exec (.ldk 0 []) State.reset = .next (State.reset.setKlen (some 0)) ∧ Space.ch ≠ .key :=
  ⟨rfl, by decide, by decide, by decide, ⟨_, exec_hmac_eq_next.2 ⟨1, [0x5a], [0, 0, 0, 0, 0, 0, 0, 1], rfl, rfl, rfl, rfl⟩⟩,
    rfl, by decide⟩

theorem witness_StepKeepsInvariant :
    BlockInvariant (stage3 0 [] 7) ∧ step (stage3 0 [] 7) = .next (raiseInvalidSecretLength (stage3 0 [] 7)) :=
  ⟨inv_stage3 _ _ _ rfl, rfl⟩

/-- GO, after the three loads, is four steps from reset. -/
theorem witness_ReachableStatesMeetRuleForty :
    ∃ u, runSteps 4 ((State.reset.setHostIn (scriptBytes [.totp [0x5a] 59 7])).setTurns [.host, .host, .host, .host]) =
      .next u ∧ u.stage = 1 := ⟨_, rfl, rfl⟩

theorem witness_StepKeepsBuffersCanonical :
    BuffersCanonical (stage3 0 [] 7) ∧ step (stage3 0 [] 7) = .next (raiseInvalidSecretLength (stage3 0 [] 7)) :=
  ⟨(inv_stage3 _ _ _ rfl).canonical, rfl⟩

theorem witness_NoFaultUnderInvariant : BlockInvariant (stage1 59 100 (List.replicate 100 1) 7) :=
  inv_stage1 _ _ _ _ (by decide)

theorem witness_BusySequencerProgresses :
    (BlockInvariant (stage1 59 1 [0x5a] 7) ∧ (stage1 59 1 [0x5a] 7).busy = true) ∧
    (BlockInvariant (stage3 0 [] 7) ∧ (stage3 0 [] 7).busy = true) :=
  ⟨⟨inv_stage1 _ _ _ _ rfl, by decide⟩, inv_stage3 _ _ _ rfl, by decide⟩

/-- Both clauses, at 1, 100, 0, 101 and 255. -/
theorem witness_TransactionEnds :
    (∀ n ∈ [1, 100, 0, 101, 255], BlockInvariant (stage1 59 n (List.replicate n.toNat 1) 7) ∧
      (stage1 59 n (List.replicate n.toNat 1) 7).busy = true ∧ (stage1 59 n (List.replicate n.toNat 1) 7).turns = [] ∧
      (stage1 59 n (List.replicate n.toNat 1) 7).klen = some n) ∧
    (1 ≤ (1 : Byte).toNat ∧ (100 : Byte).toNat ≤ 100) ∧ (0 : Byte).toNat = 0 ∧ 101 ≤ (101 : Byte).toNat := by
  refine ⟨fun n _ => ⟨inv_stage1 _ _ _ _ (by simp), rfl, rfl, rfl⟩, by decide, by decide, by decide⟩

/-- The key buffer of `stage1` holds the key, at both ends of the range of lengths. -/
theorem holds_key_1 : HoldsKey (stage1 59 1 [0x5a] 7) [0x5a] := by unfold HoldsKey; decide
theorem holds_key_100 : HoldsKey (stage1 59 100 (List.replicate 100 1) 7) (List.replicate 100 1) := by
  unfold HoldsKey; decide +kernel

theorem witness_TransactionComputesCode :
    (∃ (s : State) (t : BitVec 64) (n : Byte) (d : BitVec 32) (key : List Byte), s.stage = 1 ∧ s.turns = [] ∧ s.cause = 0 ∧
      s.code = none ∧ s.time = some t ∧ s.klen = some n ∧ s.cand = some d ∧ n = 1 ∧ key.length = n.toNat ∧
      HoldsKey s key) ∧
    (∃ (s : State) (t : BitVec 64) (n : Byte) (d : BitVec 32) (key : List Byte), s.stage = 1 ∧ s.turns = [] ∧ s.cause = 0 ∧
      s.code = none ∧ s.time = some t ∧ s.klen = some n ∧ s.cand = some d ∧ n = 100 ∧ key.length = n.toNat ∧
      HoldsKey s key) ∧
    (∀ n ∈ [(0 : Byte), 101, 255], ∃ (s : State) (t : BitVec 64) (d : BitVec 32), s.stage = 1 ∧ s.turns = [] ∧
      s.cause = 0 ∧ s.code = none ∧ s.time = some t ∧ s.klen = some n ∧ s.cand = some d) :=
  ⟨⟨stage1 59 1 [0x5a] 7, 59, 1, 7, [0x5a], rfl, rfl, rfl, rfl, rfl, rfl, rfl, rfl, rfl, holds_key_1⟩,
    ⟨stage1 59 100 (List.replicate 100 1) 7, 59, 100, 7, List.replicate 100 1, rfl, rfl, rfl, rfl, rfl, rfl, rfl, rfl,
      List.length_replicate, holds_key_100⟩,
    fun n _ => ⟨stage1 59 n [] 7, 59, 7, rfl, rfl, rfl, rfl, rfl, rfl, rfl⟩⟩

/-- The first and the last second of one step, with the same candidate. -/
theorem witness_SameWindowSameCode :
    (stage1 30 1 [0x5a] 7).stage = 1 ∧ (stage1 30 1 [0x5a] 7).turns = [] ∧ (stage1 30 1 [0x5a] 7).time = some 30 ∧
    (stage1 30 1 [0x5a] 7).klen = some 1 ∧ (stage1 30 1 [0x5a] 7).cand = some 7 ∧
    HoldsKey (stage1 30 1 [0x5a] 7) [0x5a] ∧ (stage1 59 1 [0x5a] 7).stage = 1 ∧ (stage1 59 1 [0x5a] 7).turns = [] ∧
    (stage1 59 1 [0x5a] 7).time = some 59 ∧ (stage1 59 1 [0x5a] 7).klen = some 1 ∧ (stage1 59 1 [0x5a] 7).cand = some 7 ∧
    HoldsKey (stage1 59 1 [0x5a] 7) [0x5a] ∧ [(0x5a : Byte)].length = (1 : Byte).toNat ∧
    (30 : BitVec 64).toNat / 30 = (59 : BitVec 64).toNat / 30 :=
  ⟨rfl, rfl, rfl, rfl, rfl, by unfold HoldsKey; decide, rfl, rfl, rfl, rfl, rfl, by unfold HoldsKey; decide, rfl, rfl⟩

theorem witness_TotpScriptFromReset :
    (List.replicate 100 (1 : Byte)).length ≤ 255 ∧ 1 ≤ [(0x5a : Byte)].length ∧ (List.replicate 100 (1 : Byte)).length ≤ 100 ∧
    ([] : List Byte).length = 0 ∧ 101 ≤ (List.replicate 101 (1 : Byte)).length ∧
    (List.replicate 255 (1 : Byte)).length ≤ 255 := by decide +kernel

theorem witness_EncoderProperties :
    (0 : BitVec 64).toNat / 30 = (29 : BitVec 64).toNat / 30 ∧ (29 : BitVec 64).toNat ≤ (30 : BitVec 64).toNat ∧
    challengeBytes 1 = challengeBytes 1 ∧ (challengeBytes (timeCounter config (-1)))[0]? = some 0x08 := by decide

/-- Digests that differ where it does not matter, at offsets 0 and 15. -/
theorem witness_TruncationProperties :
    (∃ (s : State) (dig : List Byte), s.stage = 5 ∧ s.turns = [] ∧ dig.length = 20 ∧
      ∀ i < 20, s.readByte .dig i = dig[i]?) ∧
    (∃ (d e : List Byte) (o : Nat), d.length = 20 ∧ e.length = 20 ∧ o < 16 ∧ (d.getD 19 0).toNat % 16 = o ∧
      (e.getD 19 0).toNat % 16 = o ∧ (d.getD o 0).toNat % 128 = (e.getD o 0).toNat % 128 ∧
      d.getD (o + 1) 0 = e.getD (o + 1) 0 ∧ d.getD (o + 2) 0 = e.getD (o + 2) 0 ∧ d.getD (o + 3) 0 = e.getD (o + 3) 0 ∧
      d ≠ e ∧ o = 0) ∧
    (∃ (d e : List Byte) (o : Nat), d.length = 20 ∧ e.length = 20 ∧ o < 16 ∧ (d.getD 19 0).toNat % 16 = o ∧
      (e.getD 19 0).toNat % 16 = o ∧ (d.getD o 0).toNat % 128 = (e.getD o 0).toNat % 128 ∧
      d.getD (o + 1) 0 = e.getD (o + 1) 0 ∧ d.getD (o + 2) 0 = e.getD (o + 2) 0 ∧ d.getD (o + 3) 0 = e.getD (o + 3) 0 ∧
      d ≠ e ∧ o = 15) :=
  ⟨⟨{ State.reset with stage := 5, dig := digOf (List.replicate 20 0xff) }, List.replicate 20 0xff, by decide⟩,
    ⟨List.replicate 19 0x00 ++ [0x10], 0x80 :: List.replicate 18 0x00 ++ [0xf0], 0, by decide⟩,
    List.replicate 15 0x00 ++ [0x80, 0x0f, 0x42, 0x3f, 0x0f], List.replicate 15 0x11 ++ [0x00, 0x0f, 0x42, 0x3f, 0x1f], 15,
    by decide⟩

/-- Two states with the same key and challenge and different times and candidates. -/
theorem witness_DigestDependsOnKeyAndChallenge :
    (stage3 1 [0x5a] 7).klen = some 1 ∧ ({ stage3 1 [0x5a] 8 with time := some 1000 } : State).klen = some 1 ∧
    (∀ i < (1 : Byte).toNat, ({ stage3 1 [0x5a] 8 with time := some 1000 } : State).readByte .key i =
      (stage3 1 [0x5a] 7).readByte .key i) ∧
    (∀ i < 8, ({ stage3 1 [0x5a] 8 with time := some 1000 } : State).readByte .ch i = (stage3 1 [0x5a] 7).readByte .ch i) ∧
    ∃ u, execHmacWith config (stage3 1 [0x5a] 7) = .next u :=
  ⟨rfl, rfl, by decide, by decide, _,
    execHmacWith_eq_next.2 ⟨1, [0x5a], [0, 0, 0, 0, 0, 0, 0, 1], rfl, rfl, rfl, rfl⟩⟩

/-- Two states that differ in the inputs and the pipeline, one pair busy and one pair in DONE. -/
theorem witness_OutputsRevealOnlyListedItems :
    ((stage3 0 [] 8).stage = (stage3 1 [0x5a] 7).stage ∧ (stage3 0 [] 8).cause = (stage3 1 [0x5a] 7).cause ∧
      (stage3 0 [] 8).matchFlag = (stage3 1 [0x5a] 7).matchFlag) ∧
    (({ stage3 0 [] 8 with stage := 10, code := some 9 } : State).stage = 10 ∧
      ({ stage3 0 [] 8 with stage := 10, code := some 9 } : State).code =
        ({ stage3 1 [0x5a] 7 with stage := 10, code := some 9 } : State).code) := by decide

theorem witness_BadKeyLengthRejects :
    ∀ n ∈ [(0 : Byte), 101, 255], ∃ (s : State) (t : BitVec 64), s.stage = 1 ∧ s.turns = [] ∧ s.time = some t ∧
      s.klen = some n ∧ (n.toNat = 0 ∨ 101 ≤ n.toNat) :=
  fun n hn => ⟨stage1 59 n [] 7, 59, rfl, rfl, rfl, rfl, by
    revert n
    decide⟩

theorem witness_ExactlyOneStatusOutput : (State.reset.setStage 11).stage.toNat ≤ 11 ∧ State.reset.stage.toNat ≤ 11 := by
  decide

/-- One step for each of the five ways STAGE changes. -/
theorem witness_StageAdvancesOnlyAsListed :
    (∃ u, step ((stage3 0 [] 7).setTurns [.reset]) = .next u ∧ u.stage = 0) ∧
    (∃ u, step { State.reset with stage := 10, hostIn := [5] } = .next u ∧ u.stage = 0) ∧
    (∃ u, step { stage1 59 0 [] 7 with stage := 0, hostIn := [4] } = .next u ∧ u.stage = 1) ∧
    (∃ u, step (stage3 1 [0x5a] 7) = .next u ∧ u.stage = 4) ∧
    (∃ u, step (stage3 0 [] 7) = .next u ∧ u.stage = 11) ∧ (stage3 0 [] 7).stage.toNat ≤ 11 :=
  ⟨⟨_, rfl, rfl⟩, ⟨_, rfl, rfl⟩, ⟨_, rfl, rfl⟩, ⟨_, rfl, rfl⟩, ⟨_, rfl, rfl⟩, by decide⟩

theorem witness_OnlyKeyCheckRaises :
    step (stage3 0 [] 7) = .next (raiseInvalidSecretLength (stage3 0 [] 7)) ∧
    (raiseInvalidSecretLength (stage3 0 [] 7)).cause ≠ (stage3 0 [] 7).cause ∧
    (raiseInvalidSecretLength (stage3 0 [] 7)).cause ≠ 0 := ⟨rfl, by decide, by decide⟩

theorem witness_OnlyVerifierAccepts :
    ∃ u, step { State.reset with stage := 9, code := some 7, cand := some 7 } = .next u ∧
      ({ State.reset with stage := 9, code := some 7, cand := some 7 } : State).matchFlag = false ∧ u.matchFlag = true :=
  ⟨_, rfl, rfl, by decide⟩

theorem witness_InputsFrozenWhileBusy :
    (stage3 0 [] 7).busy = true ∧ (∀ ts, (stage3 0 [] 7).turns ≠ .reset :: ts) ∧
    step (stage3 0 [] 7) = .next (raiseInvalidSecretLength (stage3 0 [] 7)) := ⟨by decide, by simp [stage3, stage1], rfl⟩

/-- A command that is ignored in DONE and in FAIL. -/
theorem witness_EndedTransactionHolds :
    (∃ u, step { State.reset with stage := 10, hostIn := [4] } = .next u ∧ u.stage ≠ 0) ∧
    (∃ u, step { State.reset with stage := 11, hostIn := [4] } = .next u ∧ u.stage ≠ 0) :=
  ⟨⟨_, rfl, by decide⟩, _, rfl, by decide⟩

theorem witness_MessageScheduleRecurrence : (List.replicate 64 (0x5a : Byte)).length = 64 ∧ 0 < 16 ∧ 15 < 16 ∧ 79 < 80 := by
  decide

theorem witness_LongKeysAreHashed :
    (List.replicate 64 (0x5a : Byte)).length ≤ 64 ∧ 64 < (List.replicate 65 (0x5a : Byte)).length := by decide

end Sys2Proof.Tests
end

section
/-! What a missing operand makes of each stage operation (00_scope.md R14): exactly when its meaning faults, and which
fault, in the order of the lemmas on its next states. -/

namespace Sys2Proof.Machine

/-- A register read stops exactly where the register has no value, and names the register. -/
@[simp] theorem readReg_eq_error {α : Type} {r : Reg} {v : Option α} {f : Fault} :
    readReg r v = .error f ↔ v = none ∧ f = .unwrittenRegister r := by
  cases v <;> simp [readReg, eq_comm]

/-- MemWrite stops exactly where its range leaves the buffer (20_memory.md R63). -/
theorem State.memWrite_eq_error {s : State} {sp : Space} {a : Nat} {bs : List Byte} {f : Fault} :
    s.memWrite sp a bs = .error f ↔ sp.size < a + bs.length ∧ f = .outOfRange sp a bs.length := by
  unfold State.memWrite
  split
  · next h => simp [h]
  · next h => simp [Nat.lt_of_not_le h, eq_comm]

theorem exec_tdiv_eq_fault {s : State} {f : Fault} :
    exec .tdiv s = .fault f ↔ s.time = none ∧ f = .unwrittenRegister .time := by
  simp [exec, execTdiv, execTdivWith, onRead_eq_fault, State.readTime]

/-- The challenge's eight bytes fit CH, so that only the counter's read can stop TENC. -/
theorem exec_tenc_eq_fault {s : State} {f : Fault} :
    exec .tenc s = .fault f ↔ s.ctr = none ∧ f = .unwrittenRegister .ctr := by
  simp [exec, execTenc, onRead_eq_fault, State.readCtr, State.memWrite_eq_error]

/-- A bad length is the block's exception and not a fault, so that only the length's read can stop KCHK. -/
theorem exec_kchk_eq_fault {s : State} {f : Fault} :
    exec .kchk s = .fault f ↔ s.klen = none ∧ f = .unwrittenRegister .klen := by
  simp only [exec, execKchk, onRead_eq_fault, State.readKlen, readReg_eq_error, readReg_eq_ok, or_iff_left_iff_imp]
  rintro ⟨n, -, h⟩
  split at h <;> cases h

/-- HMAC reads KLEN, then the key, then the challenge; the digest's twenty bytes fit DIG, so that its write never stops it
(43_hmac_wrapper.md R160). -/
theorem exec_hmac_eq_fault {s : State} {f : Fault} :
    exec .hmac s = .fault f ↔ (s.klen = none ∧ f = .unwrittenRegister .klen) ∨
      ∃ n, s.klen = some n ∧ (s.memRead .key 0 n.toNat = .error f ∨
        (∃ key, s.memRead .key 0 n.toNat = .ok key) ∧ s.memRead .ch 0 8 = .error f) := by
  simp [exec, execHmac, execHmacWith, onRead_eq_fault, State.readKlen, State.memWrite_eq_error, challengeLen]

theorem exec_offs_eq_fault {s : State} {f : Fault} :
    exec .offs s = .fault f ↔ s.memRead .dig 19 1 = .error f := by
  simp [exec, execOffs, onRead_eq_fault]

theorem exec_wasm_eq_fault {s : State} {f : Fault} :
    exec .wasm s = .fault f ↔ (s.off = none ∧ f = .unwrittenRegister .off) ∨
      ∃ o, s.off = some o ∧ s.memRead .dig o.toNat 4 = .error f := by
  simp [exec, execWasm, onRead_eq_fault, State.readOff]

theorem exec_msk31_eq_fault {s : State} {f : Fault} :
    exec .msk31 s = .fault f ↔ s.win = none ∧ f = .unwrittenRegister .win := by
  simp [exec, execMsk31, onRead_eq_fault, State.readWin]

theorem exec_modr_eq_fault {s : State} {f : Fault} :
    exec .modr s = .fault f ↔ s.th = none ∧ f = .unwrittenRegister .th := by
  simp [exec, execModr, onRead_eq_fault, State.readTh]

theorem exec_vcmp_eq_fault {s : State} {f : Fault} :
    exec .vcmp s = .fault f ↔ (s.code = none ∧ f = .unwrittenRegister .code) ∨
      (∃ c, s.code = some c) ∧ s.cand = none ∧ f = .unwrittenRegister .cand := by
  simp [exec, execVcmp, onRead_eq_fault, State.readCode, State.readCand]

/-- HMAC with a key byte below an acceptable KLEN missing: the key's read stops. -/
theorem exec_hmac_of_key_none {s : State} {n : Byte} {i : Nat} (hn : s.klen = some n) (hle : n.toNat ≤ 100)
    (hi : i < n.toNat) (h : s.readByte .key i = none) :
    ∃ j, j < n.toNat ∧ s.readByte .key j = none ∧ exec .hmac s = .fault (.unwrittenByte .key j) := by
  obtain ⟨j, -, hj, hnone, hread⟩ :=
    s.memRead_of_none .key (a := 0) (by simpa using hle) hi (by simpa using h)
  exact ⟨j, by omega, hnone, exec_hmac_eq_fault.2 (.inr ⟨n, hn, .inl hread⟩)⟩

/-- HMAC with the key there and a challenge byte missing: the key's read answers and the challenge's stops. -/
theorem exec_hmac_of_ch_none {s : State} {n : Byte} {i : Nat} (hn : s.klen = some n) (hle : n.toNat ≤ 100)
    (hkey : ∀ a < n.toNat, (s.readByte .key a).isSome = true) (hi : i < 8) (h : s.readByte .ch i = none) :
    ∃ j, j < 8 ∧ s.readByte .ch j = none ∧ exec .hmac s = .fault (.unwrittenByte .ch j) := by
  have hk : ∃ key, s.memRead .key 0 n.toNat = .ok key :=
    s.memRead_of_isSome .key n.toNat 0 (by simpa using hle) (by simpa using hkey)
  obtain ⟨j, -, hj, hnone, hread⟩ := s.memRead_of_none .ch (a := 0) (n := 8) (by simp) hi (by simpa using h)
  exact ⟨j, by omega, hnone, exec_hmac_eq_fault.2 (.inr ⟨n, hn, .inr ⟨hk, hread⟩⟩)⟩

/-- OFFS reads one byte, so that it is the one named. -/
theorem exec_offs_of_dig_none {s : State} (h : s.readByte .dig 19 = none) :
    exec .offs s = .fault (.unwrittenByte .dig 19) := by
  obtain ⟨j, hle, hlt, -, hread⟩ := s.memRead_of_none .dig (a := 19) (n := 1) (i := 0) (by simp) (by omega) h
  obtain rfl : j = 19 := by omega
  exact exec_offs_eq_fault.2 hread

/-- WASM's window lies inside DIG for every four-bit offset, so that only a missing byte stops it. -/
theorem exec_wasm_of_dig_none {s : State} {o : BitVec 4} {i : Nat} (ho : s.off = some o) (hi : i < 4)
    (h : s.readByte .dig (o.toNat + i) = none) :
    ∃ j, o.toNat ≤ j ∧ j < o.toNat + 4 ∧ s.readByte .dig j = none ∧
      exec .wasm s = .fault (.unwrittenByte .dig j) := by
  have hb : o.toNat + 4 ≤ Space.size .dig := by
    have := o.isLt
    simp only [Space.size_dig]
    omega
  obtain ⟨j, hle, hlt, hnone, hread⟩ := s.memRead_of_none .dig hb hi h
  exact ⟨j, hle, hlt, hnone, exec_wasm_eq_fault.2 (.inr ⟨o, ho, hread⟩)⟩

/-- Settles O31, from exactly when each stage operation faults. -/
theorem unwrittenReadsFault : Obligations.UnwrittenReadsFault := by
  intro s
  refine ⟨?tdiv, ?tenc, ?kchk, ?hmacKlen, ?hmacKey, ?hmacCh, ?offs, ?wasmOff, ?wasmDig, ?msk31, ?modr, ?vcmpCode,
    ?vcmpCand⟩
  case tdiv => exact fun h => exec_tdiv_eq_fault.2 ⟨h, rfl⟩
  case tenc => exact fun h => exec_tenc_eq_fault.2 ⟨h, rfl⟩
  case kchk => exact fun h => exec_kchk_eq_fault.2 ⟨h, rfl⟩
  case hmacKlen => exact fun h => exec_hmac_eq_fault.2 (.inl ⟨h, rfl⟩)
  case hmacKey => exact fun n i => exec_hmac_of_key_none
  case hmacCh => exact fun n i => exec_hmac_of_ch_none
  case offs => exact exec_offs_of_dig_none
  case wasmOff => exact fun h => exec_wasm_eq_fault.2 (.inl ⟨h, rfl⟩)
  case wasmDig => exact fun o i => exec_wasm_of_dig_none
  case msk31 => exact fun h => exec_msk31_eq_fault.2 ⟨h, rfl⟩
  case modr => exact fun h => exec_modr_eq_fault.2 ⟨h, rfl⟩
  case vcmpCode => exact fun h => exec_vcmp_eq_fault.2 (.inl ⟨h, rfl⟩)
  case vcmpCand => exact fun c hc h => exec_vcmp_eq_fault.2 (.inr ⟨⟨c, hc⟩, h, rfl⟩)

end Sys2Proof.Machine
end

section
/-! The state's items: the status outputs, the values after reset, what each operation writes and reads, and how STAGE
moves (10_state.md R20, R22, R23, R39). -/

namespace Sys2Proof.Machine

/-! ## Status outputs and reset -/

/-- Settles O52: each output by its own rule, and the count at each of the twelve legal stages. -/
theorem exactlyOneStatusOutput : Obligations.ExactlyOneStatusOutput := by
  intro s
  refine ⟨State.idle_iff, State.busy_iff, State.done_iff, State.err_iff, fun hlegal => ?count⟩
  case count =>
    unfold State.idle State.busy State.done State.err
    generalize s.stage.toNat = n at hlegal ⊢
    interval_cases n <;> rfl

/-- What CLR and reset leave is the reset state with the agents' lists kept (log 9). -/
theorem clearBlock_eq (s : State) : clearBlock s = (State.reset.setHostIn s.hostIn).setTurns s.turns := rfl

/-- Settles O12: the items and outputs of the reset state are read off it; an accepted CLR clears the block. -/
theorem resetStateValues : Obligations.ResetStateValues := by
  refine ⟨rfl, rfl, rfl, rfl, rfl, fun _ => rfl, rfl, rfl, fun _ => rfl, fun _ => rfl, rfl, rfl, rfl, rfl, rfl, ?clr⟩
  case clr =>
    intro s hs
    rw [exec_clr_eq_next, if_pos hs, clearBlock_eq]

/-! ## What each operation writes -/

theorem sameItem_refl (s : State) (x : Item) : SameItem s s x := by
  cases x <;> simp [SameItem]

/-- An operation that completes changes no item outside its list: each item is listed, or none of the effect's
updates moves it. -/
theorem Effect.sameItem_of_notMem {i : Instr} {s u : State} {x : Item} (h : Effect s i u) :
    x ∉ writtenItems i → SameItem s u x := by
  cases h with
  | waiting | ignored => exact fun _ => sameItem_refl s x
  | _ => cases x <;> simp [writtenItems, SameItem]

/-- Settles O34, from the effect of each operation. -/
theorem onlyListedItemsChange : Obligations.OnlyListedItemsChange :=
  fun _ _ _ _ h hx => (exec_effect h).sameItem_of_notMem hx

/-! ## What each stage operation reads -/

/-- States that agree on every byte of a space answer MemRead there alike. -/
theorem State.memRead_congr_space {s t : State} {sp : Space} {a n : Nat} {bs : List Byte}
    (h : ∀ x < sp.size, t.readByte sp x = s.readByte sp x) (hs : s.memRead sp a n = .ok bs) :
    t.memRead sp a n = .ok bs := by
  have hin : a + n ≤ sp.size := (State.memRead_eq_ok.1 hs).1
  exact State.memRead_congr (fun i hi => h (a + i) (by omega)) hs

/-- Below the length of the bytes written from index 0 on, what a buffer held before the write does not matter. -/
theorem Memory.read_writeBytes_zero_congr (m m' : Memory) {bs : List Byte} {x : Nat} (hx : x < bs.length) :
    (m'.writeBytes 0 bs).read x = (m.writeBytes 0 bs).read x := by
  simp [Memory.read_writeBytes, hx]

/-- Agreement on the two items of a list: most stage operations write their result and STAGE. -/
theorem sameItem_pair {s t : State} {x y : Item} (hx : SameItem s t x) (hy : SameItem s t y) :
    ∀ z ∈ [x, y], SameItem s t z := by
  simp [hx, hy]

/-- Settles O35: agreement carries over what each operation reads, and what it writes is a function of that. -/
theorem onlyListedItemsAreRead : Obligations.OnlyListedItemsAreRead := by
  intro i s t u hstage hread h hkchk
  cases exec_effect h with
  | waiting hi => rcases hi with rfl | rfl | rfl <;> exact ⟨t, rfl, by simp [writtenItems]⟩
  | tdiv ht =>
    have htime : t.time = s.time := hread .time (by simp [readItems])
    exact ⟨_, exec_tdiv_eq_next.2 ⟨_, htime.trans ht, rfl⟩, sameItem_pair rfl rfl⟩
  | tenc hv =>
    have hctr : t.ctr = s.ctr := hread .ctr (by simp [readItems])
    exact ⟨_, exec_tenc_eq_next.2 ⟨_, hctr.trans hv, rfl⟩,
      sameItem_pair (fun _ ha => s.ch.read_writeBytes_zero_congr t.ch ha) rfl⟩
  | pass hn hok =>
    have hklen : t.klen = s.klen := hread .klen (by simp [readItems])
    exact ⟨_, exec_kchk_eq_next.2 ⟨_, hklen.trans hn, rfl⟩, by simp [writtenItems, SameItem, hok, hkchk rfl]⟩
  | raise hn hbad =>
    have hklen : t.klen = s.klen := hread .klen (by simp [readItems])
    exact ⟨_, exec_kchk_eq_next.2 ⟨_, hklen.trans hn, rfl⟩, by simp [writtenItems, SameItem, hbad]⟩
  | hmac hn hkey hmsg =>
    have hklen : t.klen = s.klen := hread .klen (by simp [readItems])
    have hkey' := State.memRead_congr_space (sp := .key) (hread .key (by simp [readItems])) hkey
    have hmsg' := State.memRead_congr_space (sp := .ch) (hread .ch (by simp [readItems])) hmsg
    exact ⟨_, exec_hmac_eq_next.2 ⟨_, _, _, hklen.trans hn, hkey', hmsg', rfl⟩,
      sameItem_pair (fun _ ha => s.dig.read_writeBytes_zero_congr t.dig (by simpa using ha)) rfl⟩
  | offs hb =>
    have hdig : t.readByte .dig 19 = s.readByte .dig 19 := hread .dig (by simp [readItems]) 19 (by omega)
    exact ⟨_, exec_offs_eq_next.2 ⟨_, hdig.trans hb, rfl⟩, sameItem_pair rfl rfl⟩
  | wasm ho hb =>
    have hoff : t.off = s.off := hread .off (by simp [readItems])
    have hb' := State.memRead_congr_space (sp := .dig) (hread .dig (by simp [readItems])) hb
    exact ⟨_, exec_wasm_eq_next.2 ⟨_, _, hoff.trans ho, hb', rfl⟩, sameItem_pair rfl rfl⟩
  | msk31 hw =>
    have hwin : t.win = s.win := hread .win (by simp [readItems])
    exact ⟨_, exec_msk31_eq_next.2 ⟨_, hwin.trans hw, rfl⟩, sameItem_pair rfl rfl⟩
  | modr hx =>
    have hth : t.th = s.th := hread .th (by simp [readItems])
    exact ⟨_, exec_modr_eq_next.2 ⟨_, hth.trans hx, rfl⟩, sameItem_pair rfl rfl⟩
  | vcmp hc hd =>
    have hcode : t.code = s.code := hread .code (by simp [readItems])
    have hcand : t.cand = s.cand := hread .cand (by simp [readItems])
    exact ⟨_, exec_vcmp_eq_next.2 ⟨_, _, hcode.trans hc, hcand.trans hd, rfl⟩, sameItem_pair rfl rfl⟩
  | ignored hcommand => cases hstage.symm.trans hcommand
  | ldt | ldk | ldc | go | clr => cases hstage

/-! ## How STAGE moves -/

theorem keyLengthOk_eq_false_iff (n : Byte) : keyLengthOk n = false ↔ n.toNat = 0 ∨ 101 ≤ n.toNat := by
  rw [← Bool.not_eq_true, keyLengthOk_iff]
  omega

/-- The operation a stage code is decoded to is written as that code (30_encoding.md R92). -/
theorem encode_of_decodeStage {op : BitVec 4} {i : Instr} (h : decodeStage op = .ok i) : encode i = .stage op := by
  rcases decodeStage_cases h with ⟨rfl, rfl⟩ | ⟨rfl, rfl⟩ | ⟨rfl, rfl⟩ | ⟨rfl, rfl⟩ | ⟨rfl, rfl⟩ | ⟨rfl, rfl⟩ | ⟨rfl, rfl⟩ |
    ⟨rfl, rfl⟩ | ⟨rfl, rfl⟩ | ⟨rfl, rfl⟩ | ⟨rfl, rfl⟩ | ⟨rfl, rfl⟩ <;> rfl

theorem format_of_decodeCommand {bs rest : List Byte} {i : Instr} (h : decodeCommand bs = .ok (i, rest)) :
    i.format = .command := by
  rcases decodeCommand_cases h with rfl | ⟨t, rfl⟩ | ⟨len, k, rfl, -⟩ | ⟨c, rfl⟩ | rfl | rfl <;> rfl

/-- The operation of the stage code `op` leaves STAGE, or moves it to `op + 1` for `op` in 1..9, from 3 only with a good
key length, or is KCHK raising on a bad one (10_state.md R22). -/
theorem Effect.stage_of_stageCode {i : Instr} {s u : State} {op : BitVec 4} (h : Effect s i u)
    (hop : encode i = .stage op) :
    u.stage = s.stage ∨
    (u.stage.toNat = op.toNat + 1 ∧ 1 ≤ op.toNat ∧ op.toNat ≤ 9 ∧
      (op = 3 → ∃ n, s.klen = some n ∧ 1 ≤ n.toNat ∧ n.toNat ≤ 100)) ∨
    (u.stage = 11 ∧ op = 3 ∧ ∃ n, s.klen = some n ∧ (n.toNat = 0 ∨ 101 ≤ n.toNat)) := by
  cases h with
  | waiting | ignored => exact .inl rfl
  | pass hn hok =>
    cases hop
    exact .inr (.inl ⟨rfl, by decide, by decide, fun _ => ⟨_, hn, (keyLengthOk_iff _).1 hok⟩⟩)
  | raise hn hbad =>
    cases hop
    exact .inr (.inr ⟨rfl, rfl, _, hn, (keyLengthOk_eq_false_iff _).1 hbad⟩)
  | tdiv | tenc | hmac | offs | wasm | msk31 | modr | vcmp =>
    cases hop
    exact .inr (.inl ⟨rfl, by decide, by decide, fun h3 => absurd h3 (by decide)⟩)
  | ldt | ldk | ldc | go | clr => cases hop

/-- A host command leaves STAGE, or is an accepted GO or CLR (10_state.md R22). -/
theorem Effect.stage_of_command {i : Instr} {s u : State} (h : Effect s i u) (hf : i.format = .command) :
    u.stage = s.stage ∨ (i = .go ∧ s.stage = 0 ∧ s.inputsLoaded = true ∧ u.stage = 1) ∨
    (i = .clr ∧ (s.stage = 0 ∨ s.stage = 10 ∨ s.stage = 11) ∧ u.stage = 0) := by
  cases h with
  | waiting | ignored | ldt | ldk | ldc => exact .inl rfl
  | go hidle hloaded => exact .inr (.inl ⟨rfl, hidle, hloaded, rfl⟩)
  | clr hclearable => exact .inr (.inr ⟨rfl, hclearable, rfl⟩)
  | _ => cases hf

/-- The five moves of STAGE that 10_state.md R22 lists, by the states before and after the step. -/
inductive StageMove (s u : State) : Prop where
  | reset {ts : List Turn} (hturns : s.turns = .reset :: ts) (hu : u.stage = 0)
  | clr {rest : List Byte} (hcmd : decodeCommand s.hostIn = .ok (.clr, rest)) (hs : s.stage = 10 ∨ s.stage = 11)
      (hu : u.stage = 0)
  | go {rest : List Byte} (hcmd : decodeCommand s.hostIn = .ok (.go, rest)) (hs : s.stage = 0)
      (hloaded : s.inputsLoaded = true) (hu : u.stage = 1)
  | advance (hlo : 1 ≤ s.stage.toNat) (hhi : s.stage.toNat ≤ 9)
      (hlen : s.stage = 3 → ∃ n, s.klen = some n ∧ 1 ≤ n.toNat ∧ n.toNat ≤ 100)
      (hu : u.stage.toNat = s.stage.toNat + 1)
  | raise {n : Byte} (hs : s.stage = 3) (hklen : s.klen = some n) (hbad : n.toNat = 0 ∨ 101 ≤ n.toNat)
      (hu : u.stage = 11)

/-- Every move ends in a legal stage. -/
theorem StageMove.legal {s u : State} (h : StageMove s u) : u.stage.toNat ≤ 11 := by
  cases h with
  | reset _ hu | clr _ _ hu | go _ _ _ hu | raise _ _ _ hu => simp [hu]
  | advance _ hhi _ hu => omega

/-- A step leaves STAGE or makes one of the listed moves, by who moves: the sequencer, the host, nobody, or reset. -/
theorem step_stageMove {s u : State} (h : step s = .next u) : u.stage = s.stage ∨ StageMove s u := by
  obtain ⟨ts, ⟨i, hdec, hexec⟩ | ⟨i, rest, hdec, hexec⟩ | rfl | ⟨hturns, rfl⟩⟩ := step_eq_next_cases h
  · obtain hsame | ⟨hu, hlo, hhi, hlen⟩ | ⟨hu, hs, n, hklen, hbad⟩ :=
      (exec_effect hexec).stage_of_stageCode (encode_of_decodeStage hdec)
    · exact .inl hsame
    · exact .inr (.advance hlo hhi hlen hu)
    · exact .inr (.raise hs hklen hbad hu)
  · obtain hsame | ⟨rfl, hs, hloaded, hu⟩ | ⟨rfl, hs, hu⟩ :=
      (exec_effect hexec).stage_of_command (format_of_decodeCommand hdec)
    · exact .inl hsame
    · exact .inr (.go hdec hs hloaded hu)
    · obtain hidle | hended := hs
      · exact .inl (hu.trans hidle.symm)
      · exact .inr (.clr hdec hended hu)
  · exact .inl rfl
  · exact .inr (.reset hturns rfl)

/-- Settles O53: a step that changes STAGE makes one of the listed moves, and none of them leads to 12..15. -/
theorem stageAdvancesOnlyAsListed : Obligations.StageAdvancesOnlyAsListed := by
  refine ⟨fun s u h hne => ?moves, fun s u hlegal h => ?legal⟩
  case moves =>
    cases (step_stageMove h).resolve_left hne with
    | reset hturns hu => exact .inl ⟨hu, _, hturns⟩
    | clr hcmd hs hu => exact .inr (.inl ⟨hu, hs, _, hcmd⟩)
    | go hcmd hs hloaded hu => exact .inr (.inr (.inl ⟨hu, hs, hloaded, _, hcmd⟩))
    | advance hlo hhi hlen hu => exact .inr (.inr (.inr (.inl ⟨hu, hlo, hhi, hlen⟩)))
    | raise hs hklen hbad hu => exact .inr (.inr (.inr (.inr ⟨hu, hs, _, hklen, hbad⟩)))
  case legal =>
    obtain hsame | hmove := step_stageMove h
    · rwa [hsame]
    · exact hmove.legal

end Sys2Proof.Machine
end

section
/-! Format H and the reserved codes: what the decoder makes of every command byte and its payload, alone and inside a
stream, and what a reserved stage leaves to sequencer, host and reset (30_encoding.md R94 to R98, R102). -/

namespace Sys2Proof.Machine

/-! ## The bytes of each command (30_encoding.md R96, R97) -/

@[simp] theorem commandBytes_nop : commandBytes .nop = [0x00] := rfl
@[simp] theorem commandBytes_ldt (t : BitVec 64) : commandBytes (.ldt t) = 0x01 :: beBytes 8 t.toNat := rfl
@[simp] theorem commandBytes_ldk (len : Byte) (k : List Byte) : commandBytes (.ldk len k) = 0x02 :: len :: k := rfl
@[simp] theorem commandBytes_ldc (c : BitVec 32) : commandBytes (.ldc c) = 0x03 :: beBytes 4 c.toNat := rfl
@[simp] theorem commandBytes_go : commandBytes .go = [0x04] := rfl
@[simp] theorem commandBytes_clr : commandBytes .clr = [0x05] := rfl

theorem be_four (p0 p1 p2 p3 : Byte) :
    be [p0, p1, p2, p3] = p0.toNat * 2 ^ 24 + p1.toNat * 2 ^ 16 + p2.toNat * 2 ^ 8 + p3.toNat := by
  simp only [be, List.length_cons, List.length_nil]
  omega

theorem be_eight (p0 p1 p2 p3 p4 p5 p6 p7 : Byte) :
    be [p0, p1, p2, p3, p4, p5, p6, p7] = p0.toNat * 2 ^ 56 + p1.toNat * 2 ^ 48 + p2.toNat * 2 ^ 40 +
      p3.toNat * 2 ^ 32 + p4.toNat * 2 ^ 24 + p5.toNat * 2 ^ 16 + p6.toNat * 2 ^ 8 + p7.toNat := by
  simp only [be, List.length_cons, List.length_nil]
  omega

/-! ## Payloads -/

theorem takePayload_append (b : Byte) {n : Nat} {p : List Byte} (rest : List Byte) (hp : p.length = n) :
    takePayload b n (p ++ rest) = .ok (p, rest) := by
  subst hp
  simp [takePayload]

theorem takePayload_of_lt (b : Byte) {n : Nat} {bs : List Byte} (h : bs.length < n) :
    takePayload b n bs = .error (.truncated b) := if_pos h

/-! ## The decoder by command byte -/

theorem decodeCommand_nop (rest : List Byte) : decodeCommand (0x00 :: rest) = .ok (.nop, rest) := rfl
theorem decodeCommand_go (rest : List Byte) : decodeCommand (0x04 :: rest) = .ok (.go, rest) := rfl
theorem decodeCommand_clr (rest : List Byte) : decodeCommand (0x05 :: rest) = .ok (.clr, rest) := rfl

theorem decodeCommand_ldt_append {p : List Byte} (rest : List Byte) (hp : p.length = 8) :
    decodeCommand (0x01 :: (p ++ rest)) = .ok (.ldt (BitVec.ofNat 64 (be p)), rest) := by
  change decodeLdt 0x01 (p ++ rest) = _
  rw [decodeLdt, takePayload_append _ _ hp]

theorem decodeCommand_ldk_append {len : Byte} {k : List Byte} (rest : List Byte) (hk : k.length = len.toNat) :
    decodeCommand (0x02 :: len :: (k ++ rest)) = .ok (.ldk len k, rest) := by
  change decodeLdk 0x02 (len :: (k ++ rest)) = _
  simp only [decodeLdk, takePayload_append _ _ hk]

theorem decodeCommand_ldc_append {p : List Byte} (rest : List Byte) (hp : p.length = 4) :
    decodeCommand (0x03 :: (p ++ rest)) = .ok (.ldc (BitVec.ofNat 32 (be p)), rest) := by
  change decodeLdc 0x03 (p ++ rest) = _
  rw [decodeLdc, takePayload_append _ _ hp]

theorem decodeCommand_ldt_truncated {bs : List Byte} (h : bs.length < 8) :
    decodeCommand (0x01 :: bs) = .error (.truncated 0x01) := by
  change decodeLdt 0x01 bs = _
  rw [decodeLdt, takePayload_of_lt _ h]

theorem decodeCommand_ldk_truncated {len : Byte} {bs : List Byte} (h : bs.length < len.toNat) :
    decodeCommand (0x02 :: len :: bs) = .error (.truncated 0x02) := by
  change decodeLdk 0x02 (len :: bs) = _
  simp only [decodeLdk, takePayload_of_lt _ h]

theorem decodeCommand_ldc_truncated {bs : List Byte} (h : bs.length < 4) :
    decodeCommand (0x03 :: bs) = .error (.truncated 0x03) := by
  change decodeLdc 0x03 bs = _
  rw [decodeLdc, takePayload_of_lt _ h]

/-! The two fields of the command byte as numbers (30_encoding.md R95) -/

theorem commandZero_toNat (b : Byte) : (commandZero b).toNat = b.toNat / 8 := by
  have := b.isLt
  simp only [commandZero, BitVec.extractLsb'_toNat, Nat.shiftRight_eq_div_pow]
  omega

theorem commandCode_toNat (b : Byte) : (commandCode b).toNat = b.toNat % 8 := by
  simp [commandCode]

/-- Command bytes 0x06 to 0xFF are reserved: bits 7:3 are not zero, or the field `hc` is 6 or 7 (30_encoding.md R98). -/
theorem decodeCommand_reserved {b : Byte} (rest : List Byte) (hb : 6 ≤ b.toNat) :
    decodeCommand (b :: rest) = .error (.reservedCommand b) := by
  simp only [decodeCommand]
  split
  · rfl
  · next hzero =>
    have hcode : 6 ≤ (commandCode b).toNat := by
      have hsmall : b.toNat / 8 = 0 := by rw [← commandZero_toNat, not_not.1 hzero]; rfl
      rw [commandCode_toNat]
      omega
    split
    case h_7 => rfl
    all_goals omega

/-- Settles O4, from the decoder's answer to each command byte. -/
theorem payloadsAreBigEndian : Obligations.PayloadsAreBigEndian := by
  refine ⟨?ldt, ?ldk, ?ldc, ?short, ?lengths⟩
  case ldt =>
    intro p0 p1 p2 p3 p4 p5 p6 p7 rest
    rw [← be_eight]
    exact decodeCommand_ldt_append (p := [p0, p1, p2, p3, p4, p5, p6, p7]) rest rfl
  case ldk => exact fun len k rest hk => ⟨decodeCommand_ldk_append rest hk, by simp [hk]; omega⟩
  case ldc =>
    intro p0 p1 p2 p3 rest
    rw [← be_four]
    exact decodeCommand_ldc_append (p := [p0, p1, p2, p3]) rest rfl
  case short => exact fun rest => ⟨decodeCommand_nop rest, decodeCommand_go rest, decodeCommand_clr rest⟩
  case lengths => exact fun t c => by simp

/-! ## Encoded commands, whole and cut short -/

/-- Reading back a word laid out in exactly its own bytes gives the word. -/
theorem ofNat_be_beBytes {w n : Nat} (hw : 2 ^ w = 256 ^ n) (v : BitVec w) :
    BitVec.ofNat w (be (beBytes n v.toNat)) = v := by
  rw [be_beBytes, ← hw, Nat.mod_eq_of_lt v.isLt, BitVec.ofNat_toNat, BitVec.setWidth_eq]

theorem wf_ldk_iff {len : Byte} {k : List Byte} : (Instr.ldk len k).wf = true ↔ k.length = len.toNat := by
  simp [Instr.wf]

/-- The decoder takes the bytes of a well-formed command off the front of a stream and leaves what follows. -/
theorem decodeCommand_commandBytes_append {i : Instr} (hwf : i.wf = true) (hf : i.format = .command)
    (rest : List Byte) : decodeCommand (commandBytes i ++ rest) = .ok (i, rest) := by
  cases i with
  | nop => exact decodeCommand_nop rest
  | ldt t =>
    rw [commandBytes_ldt, List.cons_append, decodeCommand_ldt_append rest (beBytes_length 8 _), ofNat_be_beBytes rfl]
  | ldk len k => exact decodeCommand_ldk_append rest (wf_ldk_iff.1 hwf)
  | ldc c =>
    rw [commandBytes_ldc, List.cons_append, decodeCommand_ldc_append rest (beBytes_length 4 _), ofNat_be_beBytes rfl]
  | go => exact decodeCommand_go rest
  | clr => exact decodeCommand_clr rest
  | _ => cases hf

/-- A command is at least its command byte. -/
theorem commandBytes_length_pos {i : Instr} (hf : i.format = .command) : 0 < (commandBytes i).length := by
  cases i with
  | nop | ldt | ldk | ldc | go | clr => simp
  | _ => cases hf

/-- A command cut inside its payload is refused as truncated (30_encoding.md R98). -/
theorem decodeCommand_take_commandBytes {i : Instr} {n : Nat} (hwf : i.wf = true) (hf : i.format = .command)
    (hpos : 0 < n) (hlt : n < (commandBytes i).length) :
    ∃ b, decodeCommand ((commandBytes i).take n) = .error (.truncated b) := by
  obtain ⟨m, rfl⟩ := Nat.exists_eq_succ_of_ne_zero hpos.ne'
  cases i with
  | ldt t =>
    have hm : m < (beBytes 8 t.toNat).length := Nat.lt_of_succ_lt_succ hlt
    exact ⟨_, decodeCommand_ldt_truncated (by simpa using hm)⟩
  | ldk len k =>
    cases m with
    | zero => exact ⟨0x02, rfl⟩
    | succ m =>
      have hm : m < len.toNat := by simpa [wf_ldk_iff.1 hwf] using hlt
      exact ⟨_, decodeCommand_ldk_truncated ((List.length_take_le m k).trans_lt hm)⟩
  | ldc c =>
    have hm : m < (beBytes 4 c.toNat).length := Nat.lt_of_succ_lt_succ hlt
    exact ⟨_, decodeCommand_ldc_truncated (by simpa using hm)⟩
  | nop | go | clr => simp at hlt
  | _ => cases hf

/-! ## Streams (30_encoding.md R102) -/

theorem decodeStreamFrom_of_ok {fuel at_ : Nat} {bs rest : List Byte} {i : Instr}
    (h : decodeCommand bs = .ok (i, rest)) :
    decodeStreamFrom (fuel + 1) at_ bs =
      (decodeStreamFrom fuel (at_ + (bs.length - rest.length)) rest).map (i :: ·) := by
  cases bs with
  | nil => cases h
  | cons b bs =>
    simp only [decodeStreamFrom, h, List.length_cons]
    cases decodeStreamFrom fuel (at_ + (bs.length + 1 - rest.length)) rest <;> rfl

theorem decodeStreamFrom_of_error {fuel at_ : Nat} {bs : List Byte} {e : DecodeError} (hne : bs ≠ [])
    (h : decodeCommand bs = .error e) : decodeStreamFrom (fuel + 1) at_ bs = .error { at_ := at_, why := e } := by
  cases bs with
  | nil => exact absurd rfl hne
  | cons b bs => simp only [decodeStreamFrom, h]

section
variable {is : List Instr} (his : ∀ i ∈ is, i.wf = true ∧ i.format = .command)
include his

/-- Well-formed commands at the front of a stream are decoded one by one, a unit of fuel each, and decoding goes on at the
index after their bytes. -/
theorem decodeStreamFrom_encodeStream_append (fuel at_ : Nat) (tail : List Byte) :
    decodeStreamFrom (is.length + fuel) at_ (encodeStream is ++ tail) =
      (decodeStreamFrom fuel (at_ + (encodeStream is).length) tail).map (is ++ ·) := by
  induction is generalizing at_ with
  | nil =>
    simp only [encodeStream, List.length_nil, Nat.zero_add, Nat.add_zero, List.nil_append]
    cases decodeStreamFrom fuel at_ tail <;> rfl
  | cons i is ih =>
    obtain ⟨⟨hwf, hf⟩, his⟩ := List.forall_mem_cons.1 his
    have hdec := decodeCommand_commandBytes_append hwf hf (encodeStream is ++ tail)
    have hlen : (commandBytes i ++ (encodeStream is ++ tail)).length - (encodeStream is ++ tail).length =
        (commandBytes i).length := by
      rw [List.length_append, Nat.add_sub_cancel]
    rw [encodeStream, List.append_assoc, List.length_cons, Nat.succ_add, decodeStreamFrom_of_ok hdec, hlen, ih his,
      List.length_append, Nat.add_assoc]
    cases decodeStreamFrom fuel (at_ + ((commandBytes i).length + (encodeStream is).length)) tail <;> rfl

theorem length_le_length_encodeStream : is.length ≤ (encodeStream is).length := by
  induction is with
  | nil => rfl
  | cons i is ih =>
    obtain ⟨⟨-, hf⟩, his⟩ := List.forall_mem_cons.1 his
    have hpos := commandBytes_length_pos hf
    have hle := ih his
    rw [encodeStream, List.length_append, List.length_cons]
    omega

/-- What does not decode after well-formed commands makes the decoder refuse the stream at the index it begins at
(log 14). -/
theorem decodeStream_encodeStream_append_of_error {tail : List Byte} {e : DecodeError} (hne : tail ≠ [])
    (h : decodeCommand tail = .error e) :
    decodeStream (encodeStream is ++ tail) = .error { at_ := (encodeStream is).length, why := e } := by
  obtain ⟨fuel, hfuel⟩ : ∃ fuel, (encodeStream is ++ tail).length = is.length + (fuel + 1) := by
    have hle := length_le_length_encodeStream his
    have hpos := List.length_pos_iff.2 hne
    exact ⟨(encodeStream is ++ tail).length - is.length - 1, by rw [List.length_append]; omega⟩
  rw [decodeStream, hfuel, decodeStreamFrom_encodeStream_append his, decodeStreamFrom_of_error hne h, Nat.zero_add]
  rfl

end

/-! ## The host's turn and the reset event -/

theorem step_host {s : State} {ts : List Turn} (h : s.turns = .host :: ts) : step s = hostStep (s.setTurns ts) := by
  simp only [step, h, turnStep]

theorem step_reset {s : State} {ts : List Turn} (h : s.turns = .reset :: ts) :
    step s = .next (clearBlock (s.setTurns ts)) := by
  simp only [step, h, turnStep]

theorem hostStep_of_error {s : State} {e : DecodeError} (hne : s.hostIn ≠ []) (h : decodeCommand s.hostIn = .error e) :
    hostStep s = .refused (.badCommand e) := by
  simp only [hostStep, if_neg hne, h]

/-- Settles O5: a reserved byte and a cut command do not decode, so the stream is refused where they begin, and so is the
host's turn. -/
theorem reservedBytesAndCutStreamsRefused : Obligations.ReservedBytesAndCutStreamsRefused := by
  refine ⟨?reserved, ?cut, ?turn⟩
  case reserved =>
    intro is b rest his hb
    exact decodeStream_encodeStream_append_of_error his (List.cons_ne_nil b rest) (decodeCommand_reserved rest hb)
  case cut =>
    intro is i n his hwf hf hpos hlt
    obtain ⟨b, hb⟩ := decodeCommand_take_commandBytes hwf hf hpos hlt
    have hne : (commandBytes i).take n ≠ [] := by
      rw [← List.length_pos_iff, List.length_take]
      omega
    exact ⟨_, decodeStream_encodeStream_append_of_error his hne hb⟩
  case turn =>
    intro s ts e hturns hne h
    rw [step_host hturns]
    exact hostStep_of_error hne h

/-! ## Reserved stages (30_encoding.md R94) -/

theorem decodeStage_reserved {op : BitVec 4} (h : 12 ≤ op.toNat) : decodeStage op = .error (.reservedStage op) := by
  revert op
  decide

/-- A host command is ignored in every stage but IDLE, DONE and FAIL (40_host_commands.md R120). -/
theorem exec_command_eq_self {i : Instr} {s : State} (hwf : i.wf = true) (hf : i.format = .command)
    (hstage : ¬(s.stage = 0 ∨ s.stage = 10 ∨ s.stage = 11)) : exec i s = .next s := by
  have hidle : s.stage ≠ 0 := fun h => hstage (.inl h)
  cases i with
  | nop => exact exec_nop s
  | ldt t => exact exec_ldt_eq_next.2 (.inr ⟨hidle, rfl⟩)
  | ldk len k => exact (exec_ldk_eq_next (wf_ldk_iff.1 hwf)).2 (.inr ⟨hidle, rfl⟩)
  | ldc c => exact exec_ldc_eq_next.2 (.inr ⟨hidle, rfl⟩)
  | go => exact exec_go_eq_next.2 (.inr ⟨hidle, rfl⟩)
  | clr => exact exec_clr_eq_next.2 (if_neg hstage).symm
  | _ => cases hf

/-- Settles O10: the reserved codes decode to nothing and are none of the stages in which a command is accepted; that no
step leads there is the second half of O53. -/
theorem reservedStageIsStuck : Obligations.ReservedStageIsStuck := by
  refine ⟨fun s hs => ⟨?stuck, ?commands, ?reset⟩, stageAdvancesOnlyAsListed.2⟩
  case stuck => simp only [sequencerStep, decodeStage_reserved hs]
  case commands =>
    intro i hwf hf
    refine exec_command_eq_self hwf hf ?_
    rintro (h | h | h) <;> simp [h] at hs
  case reset => exact fun ts hturns => ⟨_, step_reset hturns, rfl⟩

end Sys2Proof.Machine
end

section
/-! The host commands: what each of them does in IDLE, in DONE and FAIL, and elsewhere, and which of them act in which
stage (40_host_commands.md R120 to R126). -/

namespace Sys2Proof.Machine

/-! ## When a command acts -/

theorem State.idle_eq_false_iff {s : State} : s.idle = false ↔ s.stage ≠ 0 := by
  rw [← Bool.not_eq_true, State.idle_iff]

theorem State.clearable_eq_false_iff {s : State} :
    s.clearable = false ↔ ¬(s.stage = 0 ∨ s.stage = 10 ∨ s.stage = 11) := by
  rw [← Bool.not_eq_true, State.clearable_iff]

theorem State.inputsLoaded_iff {s : State} :
    s.inputsLoaded = true ↔ s.time.isSome = true ∧ s.klen.isSome = true ∧ s.cand.isSome = true := by
  simp [State.inputsLoaded, and_assoc]

theorem State.inputsLoaded_eq_false_iff {s : State} :
    s.inputsLoaded = false ↔ s.time = none ∨ s.klen = none ∨ s.cand = none := by
  simp only [State.inputsLoaded, Bool.and_eq_false_iff, Option.isSome_eq_false_iff, Option.isNone_iff_eq_none,
    or_assoc]

/-- GO is refused exactly in IDLE with an input not loaded (40_host_commands.md R124). -/
theorem exec_go_eq_refused {s : State} {r : Refusal} :
    exec .go s = .refused r ↔ s.stage = 0 ∧ s.inputsLoaded = false ∧ r = .goBeforeLoad := by
  rw [← State.idle_iff]
  simp only [exec, execGo, whenIdle]
  cases s.idle with
  | false => simp
  | true => cases s.inputsLoaded <;> simp [eq_comm]

/-! ## Each command -/

/-- The bytes of one well-formed command, and no byte after them, decode to it (30_encoding.md R97). -/
theorem decode_commandBytes {i : Instr} (hwf : i.wf = true) (hf : i.format = .command) :
    decode (.command (commandBytes i)) = .ok i := by
  have hdec := decodeCommand_commandBytes_append hwf hf []
  rw [List.append_nil] at hdec
  simp only [decode, hdec]

/-- The key buffer after LDK, byte by byte: the key from index 0 on when its length is at most 100, and nothing else. -/
theorem loadedKey_read (len : Byte) (k : List Byte) (i : Nat) :
    (loadedKey len k).read i = if len.toNat ≤ 100 then k[i]? else none := by
  have hwritten : (Memory.writeBytes [] 0 k).read i = k[i]? := by
    rw [Memory.read_writeBytes]
    split
    · rfl
    · next hout => exact (List.getElem?_eq_none (by omega)).symm
  by_cases hle : len.toNat ≤ keyMax
  · rw [loadedKey, if_pos hle, hwritten, if_pos (show len.toNat ≤ 100 from hle)]
  · rw [loadedKey, if_neg hle, Memory.read_nil, if_neg (show ¬len.toNat ≤ 100 from hle)]

/-- Settles O16: LDK in IDLE puts its length in KLEN and the loaded key in KEY, the rest of the state as it is. -/
theorem ldkLoadsKey : Obligations.LdkLoadsKey := by
  intro s len k hk
  refine ⟨fun hidle => ?loads, fun hne => ?ignored, ?bytes⟩
  case loads =>
    exact ⟨_, (exec_ldk_eq_next hk).2 (.inl ⟨hidle, rfl⟩), rfl, loadedKey_read len k, rfl⟩
  case ignored => exact (exec_ldk_eq_next hk).2 (.inr ⟨hne, rfl⟩)
  case bytes => exact decode_commandBytes (wf_ldk_iff.2 hk) rfl

/-- Settles O14: NOP is the identity, and its command byte is the table's. -/
theorem nopChangesNothing : Obligations.NopChangesNothing := ⟨exec_nop, rfl⟩

/-- Settles O15, from the two cases of LDT. -/
theorem ldtLoadsTime : Obligations.LdtLoadsTime :=
  fun _ _ => ⟨fun hidle => exec_ldt_eq_next.2 (.inl ⟨hidle, rfl⟩), fun hne => exec_ldt_eq_next.2 (.inr ⟨hne, rfl⟩),
    decode_commandBytes (i := .ldt _) rfl rfl⟩

/-- Settles O17, from the two cases of LDC. -/
theorem ldcLoadsCandidate : Obligations.LdcLoadsCandidate :=
  fun _ _ => ⟨fun hidle => exec_ldc_eq_next.2 (.inl ⟨hidle, rfl⟩), fun hne => exec_ldc_eq_next.2 (.inr ⟨hne, rfl⟩),
    decode_commandBytes (i := .ldc _) rfl rfl⟩

/-- Settles O18, from exactly when GO goes on and exactly when it is refused. -/
theorem goStartsTransaction : Obligations.GoStartsTransaction := by
  refine ⟨?starts, ?refused, ?ignored, rfl⟩
  case starts =>
    intro s t n c hidle ht hn hc
    exact exec_go_eq_next.2 (.inl ⟨hidle, State.inputsLoaded_iff.2 (by simp [ht, hn, hc]), rfl⟩)
  case refused =>
    intro s hidle hmissing
    exact exec_go_eq_refused.2 ⟨hidle, State.inputsLoaded_eq_false_iff.2 hmissing, rfl⟩
  case ignored => exact fun s hne => exec_go_eq_next.2 (.inr ⟨hne, rfl⟩)

/-- Settles O19: an accepted CLR answers the cleared block, whose items are those of reset. -/
theorem clrErasesBlock : Obligations.ClrErasesBlock := by
  refine ⟨fun s hs => ?erases, fun s hidle hdone hfail => ?ignored, rfl⟩
  case erases =>
    exact ⟨clearBlock s, exec_clr_eq_next.2 (if_pos hs).symm, rfl, rfl, rfl, rfl, rfl, rfl, rfl, rfl,
      readByte_clearBlock s, rfl, rfl, rfl, clearBlock_eq s⟩
  case ignored => exact exec_clr_eq_next.2 (if_neg (not_or.2 ⟨hidle, not_or.2 ⟨hdone, hfail⟩⟩)).symm

/-! ## Acceptance (40_host_commands.md R120) -/

theorem exec_completes_of_accepted {i : Instr} {s : State} (hwf : i.wf = true) (h : accepted i s = true) :
    ∃ u, exec i s = .next u := by
  cases i with
  | nop => exact ⟨s, exec_nop s⟩
  | ldt t => exact ⟨_, exec_ldt_eq_next.2 (.inl ⟨State.idle_iff.1 h, rfl⟩)⟩
  | ldk len k => exact ⟨_, (exec_ldk_eq_next (wf_ldk_iff.1 hwf)).2 (.inl ⟨State.idle_iff.1 h, rfl⟩)⟩
  | ldc c => exact ⟨_, exec_ldc_eq_next.2 (.inl ⟨State.idle_iff.1 h, rfl⟩)⟩
  | go =>
    obtain ⟨hidle, hloaded⟩ := Bool.and_eq_true_iff.1 h
    exact ⟨_, exec_go_eq_next.2 (.inl ⟨State.idle_iff.1 hidle, hloaded, rfl⟩)⟩
  | clr => exact ⟨_, exec_clr_eq_next.2 (if_pos (State.clearable_iff.1 h)).symm⟩
  | _ => cases h

/-- A command that is not accepted is ignored, but for GO in IDLE. -/
theorem exec_eq_self_of_not_accepted {i : Instr} {s : State} (hwf : i.wf = true) (hf : i.format = .command)
    (h : accepted i s = false) (hgo : ¬(i = .go ∧ s.stage = 0)) : exec i s = .next s := by
  cases i with
  | nop => exact exec_nop s
  | ldt t => exact exec_ldt_eq_next.2 (.inr ⟨State.idle_eq_false_iff.1 h, rfl⟩)
  | ldk len k => exact (exec_ldk_eq_next (wf_ldk_iff.1 hwf)).2 (.inr ⟨State.idle_eq_false_iff.1 h, rfl⟩)
  | ldc c => exact exec_ldc_eq_next.2 (.inr ⟨State.idle_eq_false_iff.1 h, rfl⟩)
  | go => exact exec_go_eq_next.2 (.inr ⟨fun hidle => hgo ⟨rfl, hidle⟩, rfl⟩)
  | clr => exact exec_clr_eq_next.2 (if_neg (State.clearable_eq_false_iff.1 h)).symm
  | _ => cases hf

/-- In IDLE the only thing GO can lack is an input. -/
theorem inputsLoaded_of_go_not_accepted {s : State} (hidle : s.stage = 0) (h : accepted .go s = false) :
    s.inputsLoaded = false :=
  (Bool.and_eq_false_iff.1 h).resolve_left (by simp [State.idle_eq_false_iff, hidle])

/-- Settles O30, command by command. -/
theorem acceptanceByStage : Obligations.AcceptanceByStage := by
  intro i s hwf hf
  refine ⟨exec_completes_of_accepted hwf, exec_eq_self_of_not_accepted hwf hf, ?refused⟩
  case refused =>
    rintro h rfl hidle
    exact exec_go_eq_refused.2 ⟨hidle, inputsLoaded_of_go_not_accepted hidle h, rfl⟩

end Sys2Proof.Machine
end

section
/-! The time-step encoder: TDIV's quotient and TENC's challenge bytes, as operations on the words of TIME and CTR
(41_time_step_encoder.md R140, R141). -/

namespace Sys2Proof

theorem Config.wf_iff {c : Config} : c.wf = true ↔ 1 ≤ c.stepSize ∧ c.stepSize < 2 ^ 64 := by
  simp only [Config.wf, Bool.and_eq_true, decide_eq_true_eq]

/-- Configuration refuses exactly the step sizes outside the constraint of R7. -/
theorem Config.make_eq_none_iff {n : Nat} {h : List Byte → List Byte → Vector Byte 20} :
    Config.make n h = none ↔ ¬(1 ≤ n ∧ n < 2 ^ 64) := by
  simp only [Config.make, ite_eq_right_iff, reduceCtorEq, imp_false, Config.wf_iff]

end Sys2Proof

namespace Sys2Proof.Machine

/-! ## TDIV -/

/-- An admitted step size fits a word of TIME, so the quotient of the numbers is the unsigned quotient of the words. -/
theorem timeCounter_eq_udiv {c : Config} (hwf : c.wf = true) (t : BitVec 64) :
    timeCounter c t = t / BitVec.ofNat 64 c.stepSize := by
  have hstep : (BitVec.ofNat 64 c.stepSize).toNat = c.stepSize := Nat.mod_eq_of_lt (Config.wf_iff.1 hwf).2
  have hlt : t.toNat / c.stepSize < 2 ^ 64 := (Nat.div_le_self _ _).trans_lt t.isLt
  apply BitVec.eq_of_toNat_eq
  rw [BitVec.toNat_udiv, hstep]
  exact Nat.mod_eq_of_lt hlt

theorem config_wf : config.wf = true := by decide

theorem execTdivWith_eq_next {c : Config} {s u : State} : execTdivWith c s = .next u ↔
    ∃ t, s.time = some t ∧ u = (s.setCtr (some (timeCounter c t))).setStage 2 := by
  simp only [execTdivWith, onRead_eq_next, State.readTime, readReg_eq_ok, next_eq_next]

/-- R140 for every admitted step size. -/
theorem execTdivWith_of_time {c : Config} (hwf : c.wf = true) {s : State} {t : BitVec 64} (ht : s.time = some t) :
    execTdivWith c s = .next ((s.setCtr (some (t / BitVec.ofNat 64 c.stepSize))).setStage 2) :=
  execTdivWith_eq_next.2 ⟨t, ht, by rw [timeCounter_eq_udiv hwf]⟩

/-- Settles O20: TDIV is the division under the machine's configuration, whose step size is 30. -/
theorem tdivDividesTime : Obligations.TdivDividesTime := by
  refine ⟨fun s t ht => ?machine, fun c s t hwf ht => ?configured, fun h => ?refused, rfl⟩
  case machine => exact execTdivWith_of_time config_wf ht
  case configured => exact execTdivWith_of_time hwf ht
  case refused => exact Config.make_eq_none_iff.2 (by simp)

/-! ## TENC -/

/-- Byte `i` of a word, counted from the most significant, is a field of its bits. -/
theorem beByte64_eq_extractLsb' (v : BitVec 64) (i : Nat) : beByte64 v i = v.extractLsb' (8 * (7 - i)) 8 := by
  apply BitVec.eq_of_toNat_eq
  rw [beByte64_eq, BitVec.toNat_ofNat, BitVec.extractLsb'_toNat, Nat.shiftRight_eq_div_pow, Nat.pow_mul]

/-- CH after TENC, byte by byte: the counter's eight bytes, and above them what stood there. -/
theorem read_writeBytes_challengeBytes (m : Memory) (v : BitVec 64) (i : Nat) :
    (m.writeBytes 0 (challengeBytes v)).read i = if i < 8 then some (beByte64 v i) else m.read i := by
  rw [Memory.read_writeBytes, challengeBytes_length]
  by_cases hi : i < 8
  · rw [if_pos ⟨Nat.zero_le i, by omega⟩, if_pos hi, Nat.sub_zero, challengeBytes_getElem? v hi]
  · rw [if_neg (by omega), if_neg hi]

/-- Settles O21: TENC's one block write puts byte `i` of CTR, a field of its bits, at index `i` of CH. -/
theorem tencSerialisesCounter : Obligations.TencSerialisesCounter := by
  refine ⟨fun s v hv => ⟨_, exec_tenc_eq_next.2 ⟨v, hv, rfl⟩, rfl, fun i hi => ?written, fun i hi => ?kept⟩, rfl⟩
  case written =>
    rw [State.readByte_setStage, State.readByte_setCh_ch, read_writeBytes_challengeBytes, if_pos hi,
      beByte64_eq_extractLsb']
  case kept =>
    rw [State.readByte_setStage, State.readByte_setCh_ch, read_writeBytes_challengeBytes, if_neg (by omega)]
    rfl

end Sys2Proof.Machine
end

section
/-! The key check: KCHK's one decision, on the length alone (42_key_check.md R150). -/

namespace Sys2Proof.Machine

theorem exec_kchk_of_keyLengthOk {s : State} {n : Byte} (hn : s.klen = some n) (hok : keyLengthOk n = true) :
    exec .kchk s = .next (s.setStage 4) :=
  exec_kchk_eq_next.2 ⟨n, hn, (if_pos hok).symm⟩

theorem exec_kchk_of_keyLengthOk_eq_false {s : State} {n : Byte} (hn : s.klen = some n) (hbad : keyLengthOk n = false) :
    exec .kchk s = .next (raiseInvalidSecretLength s) :=
  exec_kchk_eq_next.2 ⟨n, hn, (if_neg (Bool.eq_false_iff.1 hbad)).symm⟩

/-- Settles O22: the two ranges of R150 are the lengths the check accepts and those it rejects. -/
theorem kchkChecksLength : Obligations.KchkChecksLength := by
  refine ⟨fun s n hn => ⟨fun hmin hmax => ?passes, fun hbad => ?raises⟩, rfl⟩
  case passes => exact exec_kchk_of_keyLengthOk hn ((keyLengthOk_iff n).2 ⟨hmin, hmax⟩)
  case raises => exact exec_kchk_of_keyLengthOk_eq_false hn ((keyLengthOk_eq_false_iff n).2 hbad)

end Sys2Proof.Machine
end

section
/-! The HMAC wrapper: the digest of the key and the challenge, written over DIG (43_hmac_wrapper.md R160). -/

namespace Sys2Proof.Machine

/-- A read from index 0 on that stays inside the buffer and finds every byte answers those bytes (20_memory.md R62). -/
theorem State.memRead_zero_of_readByte {s : State} {sp : Space} {n : Nat} {bs : List Byte} (hin : n ≤ sp.size)
    (hlen : bs.length = n) (hbytes : ∀ i < n, s.readByte sp i = bs[i]?) : s.memRead sp 0 n = .ok bs := by
  refine State.memRead_eq_ok.2 ⟨by rwa [Nat.zero_add], hlen, fun i hi => ?_⟩
  rw [Nat.zero_add, hbytes i hi]

/-- DIG after HMAC, byte by byte: the digest's twenty bytes, and above them what stood there. -/
theorem read_writeBytes_digest (m : Memory) (d : Vector Byte 20) (i : Nat) :
    (m.writeBytes 0 d.toList).read i = if i < 20 then d.toList[i]? else m.read i := by
  rw [Memory.read_writeBytes, Vector.length_toList, Nat.zero_add, Nat.sub_zero]
  simp only [Nat.zero_le, true_and]

/-- R160 for every primitive: key then message, the digest over DIG[0..19], and the rest of the state as it is. -/
theorem execHmacWith_of_inputs (c : Config) (s : State) (n : Byte) (key msg : List Byte) (hn : s.klen = some n)
    (hle : n.toNat ≤ 100) (hkeyLen : key.length = n.toNat) (hkey : ∀ i < n.toNat, s.readByte .key i = key[i]?)
    (hmsgLen : msg.length = 8) (hmsg : ∀ i < 8, s.readByte .ch i = msg[i]?) :
    ∃ u, execHmacWith c s = .next u ∧ u = (s.setDig u.dig).setStage 5 ∧
      (∀ i < 20, u.readByte .dig i = (c.hmacSha1 key msg).toList[i]?) ∧
      (∀ i, 20 ≤ i → u.readByte .dig i = s.readByte .dig i) := by
  have hkeyRead : s.memRead .key 0 n.toNat = .ok key := State.memRead_zero_of_readByte hle hkeyLen hkey
  have hmsgRead : s.memRead .ch 0 8 = .ok msg := State.memRead_zero_of_readByte (Nat.le_refl 8) hmsgLen hmsg
  refine ⟨_, execHmacWith_eq_next.2 ⟨n, key, msg, hn, hkeyRead, hmsgRead, rfl⟩, rfl, fun i hi => ?written,
    fun i hi => ?kept⟩
  case written =>
    rw [State.readByte_setStage, State.readByte_setDig_dig, read_writeBytes_digest, if_pos hi]
  case kept =>
    rw [State.readByte_setStage, State.readByte_setDig_dig, read_writeBytes_digest, if_neg (by omega)]
    rfl

/-- Settles O23: the machine's HMAC is the wrapper under its own configuration. -/
theorem hmacLatchesDigest : Obligations.HmacLatchesDigest :=
  ⟨execHmacWith_of_inputs, execHmacWith_of_inputs config, rfl⟩

end Sys2Proof.Machine
end

section
/-! Dynamic truncation: the offset, the window at it, the window's low 31 bits and their remainder, as the rules write
them (45_dynamic_truncation.md R190 to R193). -/

namespace Sys2Proof.Machine

/-! ## OFFS -/

/-- Masking a byte with 0x0F before its low nibble is taken changes nothing. -/
theorem offsetOf_eq_extractLsb' (b : Byte) : offsetOf b = b.extractLsb' 0 4 := by
  apply BitVec.eq_of_toNat_eq
  rw [offsetOf_toNat, BitVec.extractLsb'_toNat, Nat.shiftRight_zero]

/-- Settles O24: OFFS writes the masked last byte, which is its low nibble. -/
theorem offsSelectsLowNibble : Obligations.OffsSelectsLowNibble := by
  refine ⟨fun s b hb => ?writes, rfl⟩
  case writes => exact exec_offs_eq_next.2 ⟨b, hb, by rw [offsetOf_eq_extractLsb']⟩

/-! ## WASM -/

/-- The four bytes from any four-bit offset on lie inside DIG, the last at most at index 18. -/
theorem offset_add_four_le_size_dig (o : BitVec 4) : o.toNat + 4 ≤ Space.size .dig := by
  have hlt : o.toNat < 16 := o.isLt
  rw [Space.size_dig]
  omega

/-- WASM's read answers the four bytes at the offset, lowest index first (20_memory.md R62). -/
theorem State.memRead_window {s : State} {o : BitVec 4} {b0 b1 b2 b3 : Byte} (h0 : s.readByte .dig o.toNat = some b0)
    (h1 : s.readByte .dig (o.toNat + 1) = some b1) (h2 : s.readByte .dig (o.toNat + 2) = some b2)
    (h3 : s.readByte .dig (o.toNat + 3) = some b3) : s.memRead .dig o.toNat 4 = .ok [b0, b1, b2, b3] := by
  refine State.memRead_eq_ok.2 ⟨offset_add_four_le_size_dig o, rfl, fun i hi => ?_⟩
  match i, hi with
  | 0, _ => exact h0
  | 1, _ => exact h1
  | 2, _ => exact h2
  | 3, _ => exact h3

/-- Settles O25: the block read finds the four bytes at every offset, and the window is their big-endian number. -/
theorem wasmAssemblesWindow : Obligations.WasmAssemblesWindow := by
  refine ⟨fun s o b0 b1 b2 b3 ho h0 h1 h2 h3 => ⟨windowOf [b0, b1, b2, b3], ?writes, ?number⟩, rfl⟩
  case writes => exact exec_wasm_eq_next.2 ⟨o, _, ho, State.memRead_window h0 h1 h2 h3, rfl⟩
  case number => exact beWord_toNat b0 b1 b2 b3

/-! ## MSK31 -/

/-- Masking a word with 0x7FFFFFFF before it is cut to 31 bits changes nothing: both drop bit 31 alone. -/
theorem maskWindow_eq_setWidth (w : BitVec 32) : maskWindow w = w.setWidth 31 := by
  apply BitVec.eq_of_toNat_eq
  rw [maskWindow_toNat, BitVec.toNat_setWidth]

/-- Settles O26: MSK31 writes the masked window, which is its low 31 bits. -/
theorem msk31ClearsTopBit : Obligations.Msk31ClearsTopBit := by
  refine ⟨fun s w hw => ?writes, rfl⟩
  case writes => exact exec_msk31_eq_next.2 ⟨w, hw, by rw [maskWindow_eq_setWidth]⟩

/-! ## MODR -/

/-- A code has at most six decimal digits. -/
theorem reduceCode_le (h : BitVec 31) : (reduceCode h).toNat ≤ 999999 := by
  have hlt : h.toNat % 1000000 < 1000000 := Nat.mod_lt _ (by decide)
  rw [reduceCode_toNat]
  omega

/-- Settles O27: the remainder fits CODE's 20 bits, so that it is written whole. -/
theorem modrReducesModulo : Obligations.ModrReducesModulo := by
  refine ⟨fun s h hh => ⟨reduceCode h, ?writes, reduceCode_toNat h, reduceCode_le h⟩, rfl⟩
  case writes => exact exec_modr_eq_next.2 ⟨h, hh, rfl⟩

end Sys2Proof.Machine
end

section
/-! The verifier: VCMP's comparison of the code with the whole candidate word (46_verifier_and_wait_stages.md R210). -/

namespace Sys2Proof.Machine

/-- Settles O28: CODE zero-extended equals CAND exactly when their numbers are equal, so CAND's bits 31:20 count. -/
theorem vcmpComparesAllBits : Obligations.VcmpComparesAllBits := by
  refine ⟨fun s c d hc hd => ?writes, rfl⟩
  case writes => exact exec_vcmp_eq_next.2 ⟨c, d, hc, hd, by rw [codeMatches_eq]⟩

end Sys2Proof.Machine
end

section
/-! The exception's entry: what InvalidSecretLength finds in the block, and therefore leaves there (60_exceptions.md
R232). -/

namespace Sys2Proof.Machine

theorem State.readByte_dig_of_dig_eq_nil {s : State} (h : s.dig = []) (a : Nat) : s.readByte .dig a = none := by
  rw [State.readByte, State.buffer, h, Memory.read_nil]

/-- From stage 3 on the results of TDIV and TENC stand: CTR and the challenge bytes have values (10_state.md R40). -/
theorem StageInvariant.ctr_and_ch_isSome {s : State} (hs : StageInvariant s) (h3 : 3 ≤ s.stage.toNat) :
    s.ctr.isSome = true ∧ ∀ i < 8, (s.readByte .ch i).isSome = true := by
  obtain ⟨v, hctr, hch⟩ := hs.challenge h3
  exact ⟨Option.isSome_of_eq_some hctr, fun i hi => Option.isSome_of_eq_some (hch i hi)⟩

/-- Until HMAC has run, the results of HMAC and of every stage behind it are absent. -/
theorem BlockInvariant.digest_to_code_unwritten {s : State} (hs : BlockInvariant s) (h5 : s.stage.toNat < 5) :
    (∀ a, s.readByte .dig a = none) ∧ s.off = none ∧ s.win = none ∧ s.th = none ∧ s.code = none :=
  ⟨State.readByte_dig_of_dig_eq_nil (hs.digLater h5), hs.offLater (by omega), hs.winLater (by omega),
    hs.thLater (by omega), hs.codeLater (by omega)⟩

/-- Settles O29: the entry writes CAUSE, MATCH and STAGE, so what the invariant says at stage 3 of the pipeline's results
stands after it. -/
theorem exceptionEntryIsPrecise : Obligations.ExceptionEntryIsPrecise := by
  intro s n hs hstage hn hbad
  have hraise := exec_kchk_of_keyLengthOk_eq_false hn ((keyLengthOk_eq_false_iff n).2 hbad)
  have hnat : s.stage.toNat = 3 := by rw [hstage]; rfl
  obtain ⟨hctr, hch⟩ := hs.rule.ctr_and_ch_isSome hnat.ge
  obtain ⟨hdig, hlater⟩ := hs.digest_to_code_unwritten (by omega)
  refine ⟨_, hraise, rfl, hctr, fun i hi => ?challenge, fun i => ?digest, hlater⟩
  case challenge => rw [readByte_raiseInvalidSecretLength, hch i hi]
  case digest => rw [readByte_raiseInvalidSecretLength, hdig i]

end Sys2Proof.Machine
end

section
/-! Reset and repeated transactions: the reset event, the nine steps of a transaction with a good key on the default
schedule, and what two of them in one window share (70_reset_and_hazards.md R270, R286; log 2). -/

namespace Sys2Proof.Machine

/-- Settles O11: the event clears the block, which leaves the reset state and the agents' lists. -/
theorem resetEventErasesBlock : Obligations.ResetEventErasesBlock := by
  intro s ts hturns
  rw [step_reset hturns, clearBlock_eq, State.setTurns_hostIn, State.setTurns_turns]

/-! ## A transaction's steps on the default schedule -/

/-- With no turn scheduled, a run from the busy stage `v` begins with the operation of that code. -/
theorem runSteps_succ_of_stage {s u : State} {i : Instr} {n : Nat} (v : BitVec 4) (hturns : s.turns = [])
    (hstage : s.stage = v) (hbusy : 1 ≤ v.toNat ∧ v.toNat ≤ 9) (hdec : decodeStage v = .ok i)
    (hexec : exec i s = .next u) : runSteps (n + 1) s = runSteps n u := by
  subst hstage
  exact runSteps_succ <| by rw [step_busy hturns (State.busy_iff.2 hbusy), sequencerStep_at rfl hdec, hexec]

/-- TDIV, TENC and KCHK on a good key length: the time counter's bytes are the challenge, and HMAC is next. -/
theorem runSteps_three_encodes_time {s : State} {t : BitVec 64} {n : Byte} (hstage : s.stage = 1)
    (hturns : s.turns = []) (ht : s.time = some t) (hn : s.klen = some n) (hok : keyLengthOk n = true) :
    runSteps 3 s = .next (((s.setCtr (some (timeCounter config t))).setCh
      (s.ch.writeBytes 0 (challengeBytes (timeCounter config t)))).setStage 4) :=
  calc runSteps 3 s
    _ = runSteps 2 _ := runSteps_succ_of_stage 1 hturns hstage (by decide) rfl (exec_tdiv_eq_next.2 ⟨t, ht, rfl⟩)
    _ = runSteps 1 _ := runSteps_succ_of_stage 2 hturns rfl (by decide) rfl (exec_tenc_eq_next.2 ⟨_, rfl, rfl⟩)
    _ = runSteps 0 _ := runSteps_succ_of_stage 3 hturns rfl (by decide) rfl (exec_kchk_of_keyLengthOk hn hok)

/-- From the state GO leaves, with a good key, four steps put the digest of the time counter in DIG and write besides it
only CTR, CH and STAGE. -/
theorem runSteps_four_latches_digest {s : State} {t : BitVec 64} {n : Byte} {key : List Byte} (hstage : s.stage = 1)
    (hturns : s.turns = []) (ht : s.time = some t) (hn : s.klen = some n) (hok : keyLengthOk n = true)
    (hlen : key.length = n.toNat) (hkey : HoldsKey s key) :
    ∃ ctr ch dig, runSteps 4 s = .next ((((s.setCtr ctr).setCh ch).setDig dig).setStage 5) ∧
      ∀ i < 20, dig.read i = (config.hmacSha1 key (beBytes 8 (t.toNat / 30))).toList[i]? := by
  have hrun3 := runSteps_three_encodes_time hstage hturns ht hn hok
  have hch : ∀ i < 8, (s.ch.writeBytes 0 (challengeBytes (timeCounter config t))).read i =
      (challengeBytes (timeCounter config t))[i]? := by
    intro i hi
    rw [read_writeBytes_challengeBytes, if_pos hi, challengeBytes_getElem? _ hi]
  obtain ⟨u, hhmac, hframe, hdig, -⟩ := execHmacWith_of_inputs config
    (((s.setCtr (some (timeCounter config t))).setCh
      (s.ch.writeBytes 0 (challengeBytes (timeCounter config t)))).setStage 4) n key _ hn
    ((keyLengthOk_iff n).1 hok).2 hlen (hlen ▸ hkey) (challengeBytes_length _) hch
  have hrun : runSteps 4 s = .next u :=
    (runSteps_add 1 hrun3).trans (runSteps_succ_of_stage 4 hturns rfl (by decide) rfl hhmac)
  rw [hframe] at hrun
  rw [← timeCounter_toNat, ← challengeBytes_eq]
  exact ⟨_, _, u.dig, hrun, hdig⟩

/-- WASM's read at the offset `o` answers the window of the digest that DIG holds. -/
theorem State.memRead_window_of_digest {s : State} {dig : List Byte} (o : BitVec 4) (hlen : dig.length = 20)
    (hdig : ∀ i < 20, s.readByte .dig i = dig[i]?) :
    s.memRead .dig o.toNat 4 = .ok ((dig.drop o.toNat).take 4) := by
  have ho : o.toNat + 4 ≤ 20 := offset_add_four_le_size_dig o
  refine State.memRead_eq_ok.2 ⟨ho, ?_, fun i hi => ?_⟩
  · rw [List.length_take, List.length_drop]
    omega
  · rw [hdig _ (by omega), List.getElem?_take_of_lt hi, List.getElem?_drop]

/-- What OFFS, WASM, MSK31 and MODR compute one after another is the truncation of 00_scope.md R3. -/
theorem truncatedCode_eq_reduceCode {dig : List Byte} (hlen : dig.length = 20) :
    truncatedCode dig = (reduceCode (maskWindow (windowOf
      ((dig.drop (offsetOf (dig.getD 19 0)).toNat).take 4)))).toNat := by
  have hwindow : ((dig.drop (offsetOf (dig.getD 19 0)).toNat).take 4).length = 4 := by
    rw [List.length_take, List.length_drop]
    omega
  rw [reduceCode_toNat, maskWindow_toNat, windowOf_toNat hwindow, truncatedCode, offsetOf_toNat]

/-- From HMAC's result, four steps truncate the digest in DIG to the code, and write besides OFF, WIN, TH and CODE only
STAGE. -/
theorem runSteps_four_truncates {s : State} {dig : List Byte} (hstage : s.stage = 5) (hturns : s.turns = [])
    (hlen : dig.length = 20) (hdig : ∀ i < 20, s.readByte .dig i = dig[i]?) :
    ∃ off win th c, runSteps 4 s = .next (((((s.setOff off).setWin win).setTh th).setCode (some c)).setStage 9) ∧
      c.toNat = truncatedCode dig := by
  have hlast : s.readByte .dig 19 = some (dig.getD 19 0) := by
    rw [hdig 19 (by decide), List.getD_eq_getElem?_getD, List.getElem?_eq_getElem (by omega), Option.getD_some]
  have hwindow := State.memRead_window_of_digest (offsetOf (dig.getD 19 0)) hlen hdig
  have hrun : runSteps 4 s = _ := calc runSteps 4 s
    _ = runSteps 3 _ := runSteps_succ_of_stage 5 hturns hstage (by decide) rfl (exec_offs_eq_next.2 ⟨_, hlast, rfl⟩)
    _ = runSteps 2 _ :=
      runSteps_succ_of_stage 6 hturns rfl (by decide) rfl (exec_wasm_eq_next.2 ⟨_, _, rfl, hwindow, rfl⟩)
    _ = runSteps 1 _ := runSteps_succ_of_stage 7 hturns rfl (by decide) rfl (exec_msk31_eq_next.2 ⟨_, rfl, rfl⟩)
    _ = runSteps 0 _ := runSteps_succ_of_stage 8 hturns rfl (by decide) rfl (exec_modr_eq_next.2 ⟨_, rfl, rfl⟩)
  exact ⟨_, _, _, _, hrun, (truncatedCode_eq_reduceCode hlen).symm⟩

/-- With a good key, nine steps from the state GO leaves end in DONE with the code of 00_scope.md R3 and the verdict
that it equals the candidate. -/
theorem runSteps_nine_computes_code {s : State} {t : BitVec 64} {n : Byte} {d : BitVec 32} {key : List Byte}
    (hstage : s.stage = 1) (hturns : s.turns = []) (ht : s.time = some t) (hn : s.klen = some n)
    (hd : s.cand = some d) (hok : keyLengthOk n = true) (hlen : key.length = n.toNat) (hkey : HoldsKey s key) :
    ∃ u c, runSteps 9 s = .next u ∧ u.stage = 10 ∧ u.cause = s.cause ∧ u.code = some c ∧
      c.toNat = totpCode config key t ∧ u.matchFlag = decide (totpCode config key t = d.toNat) := by
  obtain ⟨ctr, ch, dig, hrun5, hdig⟩ := runSteps_four_latches_digest hstage hturns ht hn hok hlen hkey
  obtain ⟨off, win, th, c, hrun9, hc⟩ := runSteps_four_truncates
    (s := (((s.setCtr ctr).setCh ch).setDig dig).setStage 5) rfl hturns Vector.length_toList hdig
  have hcode : c.toNat = totpCode config key t := hc
  have hrun : runSteps 9 s = _ := (runSteps_add 5 hrun5).trans <| (runSteps_add 1 hrun9).trans <|
    runSteps_succ_of_stage 9 hturns rfl (by decide) rfl (exec_vcmp_eq_next.2 ⟨c, d, rfl, hd, rfl⟩)
  refine ⟨_, c, hrun, rfl, rfl, rfl, hcode, ?verdict⟩
  case verdict => rw [← hcode, ← codeMatches_eq, State.setStage_matchFlag, State.setMatch_matchFlag]

/-! ## Two transactions in one window -/

/-- The code depends on the time only through the step it falls in. -/
theorem totpCode_congr_time {t t' : BitVec 64} (key : List Byte) (h : t.toNat / 30 = t'.toNat / 30) :
    totpCode config key t = totpCode config key t' := by
  rw [totpCode, totpCode, config_stepSize, h]

/-- Settles O45: each run ends with the code of its key and time, and the two times have one code. -/
theorem sameWindowSameCode : Obligations.SameWindowSameCode := by
  intro s s' t t' n d d' key hstage hturns ht hn hd hkey hstage' hturns' ht' hn' hd' hkey' hmin hmax hlen hwindow
  have hok : keyLengthOk n = true := (keyLengthOk_iff n).2 ⟨hmin, hmax⟩
  obtain ⟨u, c, hrun, -, -, hcode, hc, hmatch⟩ :=
    runSteps_nine_computes_code hstage hturns ht hn hd hok hlen hkey
  obtain ⟨u', c', hrun', -, -, hcode', hc', hmatch'⟩ :=
    runSteps_nine_computes_code hstage' hturns' ht' hn' hd' hok hlen hkey'
  have hsame : totpCode config key t = totpCode config key t' := totpCode_congr_time key hwindow
  obtain rfl : c = c' := BitVec.eq_of_toNat_eq (by rw [hc, hc', hsame])
  refine ⟨u, u', c, hrun, hrun', hcode, hcode', fun hcand => ?verdict⟩
  case verdict => rw [hmatch, hmatch', hsame, hcand]

end Sys2Proof.Machine
end

section
/-! Encoders and decoders undo each other: every well-formed operation is read back from its encoding, every accepted word
is the encoding of what it is read as, and so for streams of commands (30_encoding.md R92, R96, R97, R102). -/

namespace Sys2Proof.Machine

/-! ## Decoding what was encoded -/

theorem encode_of_command {i : Instr} (hf : i.format = .command) : encode i = .command (commandBytes i) := by
  cases i with
  | nop | ldt | ldk | ldc | go | clr => rfl
  | _ => cases hf

theorem decode_encode_of_stage {i : Instr} (hf : i.format = .stage) : decode (encode i) = .ok i := by
  cases i with
  | nop | ldt | ldk | ldc | go | clr => cases hf
  | _ => rfl

/-- Settles O1, by the two formats. -/
theorem decodeInvertsEncode : Obligations.DecodeInvertsEncode := by
  intro i hwf
  cases hf : i.format with
  | stage => exact decode_encode_of_stage hf
  | command => rw [encode_of_command hf, decode_commandBytes hwf hf]

/-- Settles O2: each command takes one unit of the fuel, and nothing is left after the last. -/
theorem streamOfCommandsDecodes : Obligations.StreamOfCommandsDecodes := by
  intro is his
  obtain ⟨fuel, hfuel⟩ := Nat.exists_eq_add_of_le (length_le_length_encodeStream his)
  have hdec := decodeStreamFrom_encodeStream_append his fuel 0 []
  rw [List.append_nil, ← hfuel] at hdec
  rw [decodeStream, hdec]
  simp [decodeStreamFrom, Except.map]

/-! ## Encoding what was decoded -/

/-- A payload is exactly the bytes it was asked for, taken off the front (30_encoding.md R98). -/
theorem takePayload_eq_ok {b : Byte} {n : Nat} {bs p rest : List Byte} (h : takePayload b n bs = .ok (p, rest)) :
    p.length = n ∧ bs = p ++ rest := by
  unfold takePayload at h
  split at h
  · cases h
  · next hlen =>
    cases h
    exact ⟨by rw [List.length_take]; omega, (List.take_append_drop n bs).symm⟩

/-- Laying out the word read from exactly its own bytes gives the bytes. -/
theorem beBytes_ofNat_be {w n : Nat} (hw : 2 ^ w = 256 ^ n) {p : List Byte} (hp : p.length = n) :
    beBytes n (BitVec.ofNat w (be p)).toNat = p := by
  subst hp
  rw [BitVec.toNat_ofNat, hw, Nat.mod_eq_of_lt (be_lt p), beBytes_be]

theorem decodeLdt_eq_ok {b : Byte} {bs rest : List Byte} {i : Instr} (h : decodeLdt b bs = .ok (i, rest)) :
    ∃ t, i = .ldt t ∧ bs = beBytes 8 t.toNat ++ rest := by
  unfold decodeLdt at h
  split at h
  · next p r hp =>
    cases h
    obtain ⟨hlen, hbs⟩ := takePayload_eq_ok hp
    exact ⟨_, rfl, by rw [beBytes_ofNat_be rfl hlen, hbs]⟩
  · cases h

theorem decodeLdk_eq_ok {b : Byte} {bs rest : List Byte} {i : Instr} (h : decodeLdk b bs = .ok (i, rest)) :
    ∃ len k, i = .ldk len k ∧ bs = len :: (k ++ rest) := by
  unfold decodeLdk at h
  split at h
  · cases h
  · next len bs =>
    split at h
    · next p r hp =>
      cases h
      exact ⟨_, _, rfl, by rw [(takePayload_eq_ok hp).2]⟩
    · cases h

theorem decodeLdc_eq_ok {b : Byte} {bs rest : List Byte} {i : Instr} (h : decodeLdc b bs = .ok (i, rest)) :
    ∃ c, i = .ldc c ∧ bs = beBytes 4 c.toNat ++ rest := by
  unfold decodeLdc at h
  split at h
  · next p r hp =>
    cases h
    obtain ⟨hlen, hbs⟩ := takePayload_eq_ok hp
    exact ⟨_, rfl, by rw [beBytes_ofNat_be rfl hlen, hbs]⟩
  · cases h

/-- The six command bytes that are not reserved (30_encoding.md R96). -/
theorem commandByte_cases {b : Byte} (hb : b.toNat < 6) : b = 0 ∨ b = 1 ∨ b = 2 ∨ b = 3 ∨ b = 4 ∨ b = 5 := by
  bv_omega

/-- What the decoder takes off the front of a stream is exactly the bytes of the command it answers. -/
theorem eq_commandBytes_append_of_decodeCommand {bs rest : List Byte} {i : Instr}
    (h : decodeCommand bs = .ok (i, rest)) : bs = commandBytes i ++ rest := by
  cases bs with
  | nil => cases h
  | cons b bs =>
    by_cases hb : 6 ≤ b.toNat
    · rw [decodeCommand_reserved bs hb] at h
      cases h
    · obtain rfl | rfl | rfl | rfl | rfl | rfl := commandByte_cases (Nat.lt_of_not_le hb)
      · cases h; rfl
      · obtain ⟨t, rfl, rfl⟩ := decodeLdt_eq_ok (b := 0x01) (bs := bs) h
        rfl
      · obtain ⟨len, k, rfl, rfl⟩ := decodeLdk_eq_ok (b := 0x02) (bs := bs) h
        rfl
      · obtain ⟨c, rfl, rfl⟩ := decodeLdc_eq_ok (b := 0x03) (bs := bs) h
        rfl
      · cases h; rfl
      · cases h; rfl

/-- A stage code is read as a stage operation, and those are well formed. -/
theorem wf_and_format_of_decodeStage {op : BitVec 4} {i : Instr} (h : decodeStage op = .ok i) :
    i.wf = true ∧ i.format = .stage := by
  have hencode := encode_of_decodeStage h
  cases i with
  | nop | ldt | ldk | ldc | go | clr => cases hencode
  | _ => exact ⟨rfl, rfl⟩

/-- Settles O3, from what each decoder accepts. -/
theorem decodedWordsReencode : Obligations.DecodedWordsReencode := by
  refine ⟨fun bs rest i h => ?command, fun op i h => ?stage⟩
  case command => exact ⟨decodeCommand_wf h, format_of_decodeCommand h, eq_commandBytes_append_of_decodeCommand h⟩
  case stage =>
    obtain ⟨hwf, hf⟩ := wf_and_format_of_decodeStage h
    exact ⟨hwf, hf, encode_of_decodeStage h⟩

/-! ## The maps written out -/

/-- Settles O6: the decoders run on each word. -/
theorem writtenOutWordsDecode : Obligations.WrittenOutWordsDecode := ⟨rfl, rfl, rfl, rfl, rfl, rfl⟩

/-- Settles O7: the reserved codes are refused, and each of the others names its row. -/
theorem stageDecoderIsTotal : Obligations.StageDecoderIsTotal := by
  refine ⟨fun op => decodeStage_reserved, fun op hop => ?row⟩
  case row =>
    refine ⟨_, ?decodes, List.getElem?_eq_getElem (Nat.lt_succ_of_le hop)⟩
    case decodes =>
      revert op
      decide

end Sys2Proof.Machine
end

section
/-! Who moves in a step, and what the operations leave as it is: bytes, inputs, and the agents' lists (20_memory.md R66,
R69; 10_state.md R20, R37; log 2, log 9). -/

namespace Sys2Proof.Machine

/-! ## The agent that moves -/

theorem step_sequencer {s : State} {ts : List Turn} (h : s.turns = .sequencer :: ts) :
    step s = sequencerStep (s.setTurns ts) := by
  simp only [step, h, turnStep]

/-- While the block is busy a WAIT stays in the schedule and the sequencer moves. -/
theorem step_wait_of_busy {s : State} {ts : List Turn} (h : s.turns = .wait :: ts) (hbusy : s.busy = true) :
    step s = sequencerStep s := by
  have hkept : (s.setTurns ts).setTurns (.wait :: ts) = s := by rw [← h]; rfl
  have hbusy' : (s.setTurns ts).busy = true := hbusy
  simp only [step, h, turnStep, hbusy', if_true, State.setTurns_turns, hkept]

theorem step_wait_of_not_busy {s : State} {ts : List Turn} (h : s.turns = .wait :: ts) (hbusy : s.busy = false) :
    step s = .next (s.setTurns ts) := by
  have hbusy' : (s.setTurns ts).busy = false := hbusy
  simp [step, h, turnStep, hbusy']

theorem step_observe {s : State} {ts : List Turn} (h : s.turns = .observe :: ts) : step s = .next (s.setTurns ts) := by
  simp only [step, h, turnStep]

theorem step_sampleCode {s : State} {ts : List Turn} (h : s.turns = .sampleCode :: ts) :
    step s = if s.done then .next (s.setTurns ts) else .refused .codeNotDone := by
  simp only [step, h, turnStep, sampleCodeStep]
  rfl

/-- With no turn scheduled and the block not busy, a host that has sent something moves. -/
theorem step_default_host {s : State} (ht : s.turns = []) (hbusy : s.busy = false) (hne : s.hostIn ≠ []) :
    step s = hostStep s := by
  simp [step, ht, defaultStep, hbusy, hne]

theorem step_default_quiet {s : State} (ht : s.turns = []) (hempty : s.hostIn = []) : step s = sequencerStep s := by
  simp [step, ht, defaultStep, hempty]

theorem hostIn_ne_nil_of_decodeCommand {bs rest : List Byte} {i : Instr} (h : decodeCommand bs = .ok (i, rest)) :
    bs ≠ [] := by
  rintro rfl
  cases h

theorem hostStep_of_ok {s : State} {i : Instr} {rest : List Byte} (h : decodeCommand s.hostIn = .ok (i, rest)) :
    hostStep s = exec i (s.setHostIn rest) := by
  simp only [hostStep, if_neg (hostIn_ne_nil_of_decodeCommand h), h]

/-- Settles O8, by the agent that moves. -/
theorem stepRunsDecodedInstruction : Obligations.StepRunsDecodedInstruction := by
  refine ⟨?sequencer, ?host, ?busy, ?defaultHost, ?quiet⟩
  case sequencer =>
    intro s ts i hturns hdec
    rw [step_sequencer hturns]
    exact sequencerStep_at rfl hdec
  case host =>
    intro s ts i rest hturns hdec
    rw [step_host hturns]
    exact hostStep_of_ok hdec
  case busy => exact fun s i hturns hbusy hdec => (step_busy hturns hbusy).trans (sequencerStep_at rfl hdec)
  case defaultHost =>
    intro s i rest hturns hbusy hdec
    rw [step_default_host hturns hbusy (hostIn_ne_nil_of_decodeCommand hdec), hostStep_of_ok hdec]
  case quiet => exact fun s i hturns _ hempty hdec => (step_default_quiet hturns hempty).trans (sequencerStep_at rfl hdec)

/-- Settles O9, turn by turn. -/
theorem waitAndObservationTurns : Obligations.WaitAndObservationTurns := by
  refine ⟨?busy, fun s ts => step_wait_of_not_busy, fun s ts => step_observe, ?sample⟩
  case busy => exact fun s ts i hturns hbusy hdec => (step_wait_of_busy hturns hbusy).trans (sequencerStep_at rfl hdec)
  case sample =>
    intro s ts hturns
    rw [step_sampleCode hturns]
    exact ⟨fun hdone => if_pos (State.done_iff.2 hdone), fun hne => if_neg (mt State.done_iff.1 hne)⟩

/-- Settles O13: each wait stage is the identity. -/
theorem waitStagesHold : Obligations.WaitStagesHold := fun s => ⟨exec_idle s, exec_done s, exec_fail s⟩

/-! ## What the host observes -/

theorem State.codeOut_congr {s t : State} (hstage : t.stage = s.stage) (hcode : s.stage = 10 → t.code = s.code) :
    t.codeOut = s.codeOut := by
  have hdone : t.done = s.done := by rw [State.done, hstage, ← State.done]
  cases h : s.done with
  | false => simp [State.codeOut, hdone, h]
  | true => simp [State.codeOut, hdone, h, hcode (State.done_iff.1 h)]

/-- Settles O50: the status is a function of STAGE, and code_out shows CODE in DONE alone. -/
theorem outputsRevealOnlyListedItems : Obligations.OutputsRevealOnlyListedItems := by
  intro s t hstage hcause hmatch hcode
  simp only [State.outputs, State.idle, State.busy, State.done, State.err, hstage, hcause, hmatch,
    State.codeOut_congr hstage hcode]

/-! ## Frames -/

theorem SameBytes.refl (s : State) : SameBytes s s := fun _ _ => rfl

theorem Effect.sameAgents {i : Instr} {s u : State} (h : Effect s i u) : SameAgents s u := by
  cases h <;> exact ⟨rfl, rfl⟩

theorem Effect.sameInputs_of_stage {i : Instr} {s u : State} (h : Effect s i u) (hf : i.format = .stage) :
    SameInputs s u := by
  cases h with
  | ignored hcommand => cases hf.symm.trans hcommand
  | ldt | ldk | ldc | go | clr => cases hf
  | _ => exact ⟨rfl, rfl, rfl, fun _ => rfl⟩

/-- Only TENC, HMAC, LDK and CLR write a buffer (20_memory.md R66). -/
theorem Effect.sameBytes {i : Instr} {s u : State} (h : Effect s i u) (htenc : i ≠ .tenc) (hhmac : i ≠ .hmac)
    (hldk : ∀ len k, i ≠ .ldk len k) (hclr : i ≠ .clr) : SameBytes s u := by
  cases h with
  | waiting | ignored => exact SameBytes.refl s
  | tenc => exact absurd rfl htenc
  | hmac => exact absurd rfl hhmac
  | ldk => exact absurd rfl (hldk _ _)
  | clr => exact absurd rfl hclr
  | _ => exact fun sp a => by simp

/-- Settles O32: none of the listed operations is one that writes a buffer. -/
theorem registerOperationsStoreNothing : Obligations.RegisterOperationsStoreNothing := by
  intro i s u hi h
  refine (exec_effect h).sameBytes ?_ ?_ (fun len k => ?_) ?_ <;> rintro rfl <;> simp at hi

/-- Settles O33, from the effect of each operation. -/
theorem operationsKeepAgentsAndInputs : Obligations.OperationsKeepAgentsAndInputs :=
  ⟨fun _ _ _ h => (exec_effect h).sameAgents, fun _ _ _ hf h => (exec_effect h).sameInputs_of_stage hf⟩

/-- Settles O36: each operation's block write moves the bytes of its own range. -/
theorem storingOperationsFrame : Obligations.StoringOperationsFrame := by
  refine ⟨?tenc, ?hmac, ?ldk⟩
  case tenc =>
    intro s u sp a h hout
    obtain ⟨v, -, rfl⟩ := exec_tenc_eq_next.1 h
    cases sp with
    | key | dig => rfl
    | ch =>
      have ha : ¬ a < 8 := fun ha => hout ⟨rfl, ha⟩
      rw [State.readByte_setStage, State.readByte_setCh_ch, read_writeBytes_challengeBytes, if_neg ha]
      rfl
  case hmac =>
    intro s u sp a h hout
    obtain ⟨n, key, msg, -, -, -, rfl⟩ := exec_hmac_eq_next.1 h
    cases sp with
    | key | ch => rfl
    | dig =>
      have ha : ¬ a < 20 := fun ha => hout ⟨rfl, ha⟩
      rw [State.readByte_setStage, State.readByte_setDig_dig, read_writeBytes_digest, if_neg ha]
      rfl
  case ldk =>
    intro len k s u sp a h hsp
    cases exec_effect h with
    | waiting | ignored => rfl
    | ldk =>
      cases sp with
      | key => exact absurd rfl hsp
      | ch | dig => rfl

end Sys2Proof.Machine
end

section
/-! What no step can do: the rules that hold of every step, whoever moves (10_state.md R24; 20_memory.md R60, R69;
46_verifier_and_wait_stages.md R212, R213; 60_exceptions.md R230, R250). -/

namespace Sys2Proof.Machine

/-! ## One step, by who moves -/

/-- What one step from `s` can do: the effect of the operation STAGE names, or of the host's next command, or a turn that
changes the schedule alone, or reset. -/
inductive Move (s : State) : State → Prop where
  | sequencer {ts : List Turn} {i : Instr} {u : State} (hop : encode i = .stage s.stage)
      (h : Effect (s.setTurns ts) i u) : Move s u
  | host {ts : List Turn} {rest : List Byte} {i : Instr} {u : State} (hwf : i.wf = true) (hf : i.format = .command)
      (h : Effect ((s.setTurns ts).setHostIn rest) i u) : Move s u
  | schedule (ts : List Turn) : Move s (s.setTurns ts)
  | reset {ts : List Turn} (hturns : s.turns = .reset :: ts) : Move s (clearBlock (s.setTurns ts))

theorem step_move {s u : State} (h : step s = .next u) : Move s u := by
  obtain ⟨ts, ⟨i, hdec, hexec⟩ | ⟨i, rest, hdec, hexec⟩ | rfl | ⟨hturns, rfl⟩⟩ := step_eq_next_cases h
  · exact .sequencer (encode_of_decodeStage hdec) (exec_effect hexec)
  · exact .host (decodeCommand_wf hdec) (format_of_decodeCommand hdec) (exec_effect hexec)
  · exact .schedule ts
  · exact .reset hturns

/-- An operation with a stage code is of the format S. -/
theorem format_of_encode_stage {i : Instr} {op : BitVec 4} (h : encode i = .stage op) : i.format = .stage := by
  cases hf : i.format with
  | stage => rfl
  | command => cases (encode_of_command hf).symm.trans h

/-! ## CAUSE and MATCH -/

/-- CAUSE stays, or is cleared, or is 1 because KCHK has raised. -/
theorem Effect.cause_cases {i : Instr} {s u : State} (h : Effect s i u) :
    u.cause = s.cause ∨ u.cause = 0 ∨
    (i = .kchk ∧ u.cause = 1 ∧ u.stage = 11 ∧ ∃ n, s.klen = some n ∧ (n.toNat = 0 ∨ 101 ≤ n.toNat)) := by
  cases h with
  | raise hn hbad => exact .inr (.inr ⟨rfl, rfl, rfl, _, hn, (keyLengthOk_eq_false_iff _).1 hbad⟩)
  | go | clr => exact .inr (.inl rfl)
  | _ => exact .inl rfl

/-- MATCH stays, or is cleared, or is VCMP's comparison. -/
theorem Effect.matchFlag_cases {i : Instr} {s u : State} (h : Effect s i u) :
    u.matchFlag = s.matchFlag ∨ u.matchFlag = false ∨
    (i = .vcmp ∧ u.stage = 10 ∧ ∃ c d, s.code = some c ∧ s.cand = some d ∧ u.matchFlag = codeMatches c d) := by
  cases h with
  | vcmp hc hd => exact .inr (.inr ⟨rfl, rfl, _, _, hc, hd, rfl⟩)
  | raise | go | clr => exact .inr (.inl rfl)
  | _ => exact .inl rfl

/-- Settles O54: the effect that raises is KCHK's, which only the sequencer has, in stage 3. -/
theorem onlyKeyCheckRaises : Obligations.OnlyKeyCheckRaises := by
  intro s u h hne hne0
  cases step_move h with
  | sequencer hop heffect =>
    obtain hsame | hzero | ⟨rfl, hcause, hstage, hlen⟩ := heffect.cause_cases
    · exact absurd hsame hne
    · exact absurd hzero hne0
    · exact ⟨hcause, (Encoded.stage.inj hop).symm, hstage, hlen⟩
  | host _ hf heffect =>
    obtain hsame | hzero | ⟨rfl, -⟩ := heffect.cause_cases
    · exact absurd hsame hne
    · exact absurd hzero hne0
    · cases hf
  | schedule => exact absurd rfl hne
  | reset => exact absurd rfl hne0

/-- Settles O55: the effect that can raise MATCH is VCMP's, which only the sequencer has, in stage 9. -/
theorem onlyVerifierAccepts : Obligations.OnlyVerifierAccepts := by
  intro s u h hlow hhigh
  have hne : ¬u.matchFlag = s.matchFlag := by simp [hlow, hhigh]
  have hne0 : ¬u.matchFlag = false := by simp [hhigh]
  cases step_move h with
  | sequencer hop heffect =>
    obtain hsame | hzero | ⟨rfl, hstage, c, d, hc, hd, hmatch⟩ := heffect.matchFlag_cases
    · exact absurd hsame hne
    · exact absurd hzero hne0
    · rw [hhigh, codeMatches_eq, eq_comm, decide_eq_true_iff] at hmatch
      exact ⟨(Encoded.stage.inj hop).symm, hstage, c, d, hc, hd, hmatch⟩
  | host _ hf heffect =>
    obtain hsame | hzero | ⟨rfl, -⟩ := heffect.matchFlag_cases
    · exact absurd hsame hne
    · exact absurd hzero hne0
    · cases hf
  | schedule => exact absurd rfl hne
  | reset => exact absurd rfl hne0

/-! ## Inputs while busy, and the block after the end -/

/-- A command that acts finds IDLE, or is CLR in DONE or FAIL (40_host_commands.md R120). -/
theorem Effect.eq_self_or_stage_of_command {i : Instr} {s u : State} (h : Effect s i u) (hf : i.format = .command) :
    u = s ∨ s.stage = 0 ∨ ((s.stage = 10 ∨ s.stage = 11) ∧ u.stage = 0) := by
  cases h with
  | waiting | ignored => exact .inl rfl
  | ldt hidle | ldk hidle | ldc hidle | go hidle => exact .inr (.inl hidle)
  | clr hclearable =>
    obtain hidle | hended := hclearable
    · exact .inr (.inl hidle)
    · exact .inr (.inr ⟨hended, rfl⟩)
  | _ => cases hf

theorem State.stage_ne_of_busy {s : State} (h : s.busy = true) : s.stage ≠ 0 ∧ s.stage ≠ 10 ∧ s.stage ≠ 11 := by
  obtain ⟨hmin, hmax⟩ := State.busy_iff.1 h
  bv_omega

/-- Settles O56: the sequencer writes no input, and every command is ignored. -/
theorem inputsFrozenWhileBusy : Obligations.InputsFrozenWhileBusy := by
  intro s u hbusy hreset h
  obtain ⟨hidle, hdone, hfail⟩ := State.stage_ne_of_busy hbusy
  cases step_move h with
  | sequencer hop heffect => exact heffect.sameInputs_of_stage (format_of_encode_stage hop)
  | host _ hf heffect =>
    obtain rfl | hzero | ⟨hended, -⟩ := heffect.eq_self_or_stage_of_command hf
    · exact ⟨rfl, rfl, rfl, fun _ => rfl⟩
    · exact absurd hzero hidle
    · exact (hended.elim hdone hfail).elim
  | schedule => exact ⟨rfl, rfl, rfl, fun _ => rfl⟩
  | reset hturns => exact absurd hturns (hreset _)

theorem sameBlock_setHostIn_setTurns (s : State) (bs : List Byte) (ts : List Turn) :
    SameBlock s ((s.setTurns ts).setHostIn bs) :=
  ⟨rfl, rfl, rfl, rfl, rfl, rfl, rfl, rfl, rfl, rfl, rfl, rfl, rfl, rfl⟩

/-- The operation of the stage code 10 or 11 waits. -/
theorem Effect.eq_self_of_ended {i : Instr} {s u : State} {op : BitVec 4} (h : Effect s i u) (hop : encode i = .stage op)
    (hended : op = 10 ∨ op = 11) : u = s := by
  cases h with
  | waiting | ignored => rfl
  | _ => cases hop <;> simp at hended

/-- Settles O57: the sequencer waits, and of the commands only CLR acts, which leads to IDLE. -/
theorem endedTransactionHolds : Obligations.EndedTransactionHolds := by
  intro s u hended h hne
  cases step_move h with
  | @sequencer ts _ _ hop heffect =>
    obtain rfl := heffect.eq_self_of_ended hop hended
    exact sameBlock_setHostIn_setTurns s s.hostIn ts
  | @host ts rest _ _ _ hf heffect =>
    obtain rfl | hidle | ⟨-, hzero⟩ := heffect.eq_self_or_stage_of_command hf
    · exact sameBlock_setHostIn_setTurns s rest ts
    · have hzero : s.stage = 0 := hidle
      simp [hzero] at hended
    · exact absurd hzero hne
  | schedule ts => exact sameBlock_setHostIn_setTurns s s.hostIn ts
  | reset => exact absurd rfl hne

/-! ## Canonical buffers -/

theorem Effect.buffersCanonical {i : Instr} {s u : State} (h : Effect s i u) (hs : BuffersCanonical s) :
    BuffersCanonical u := by
  obtain ⟨hkey, hch, hdig⟩ := hs
  cases h with
  | tenc => exact ⟨hkey, Memory.wf_writeBytes _ hch (by simp), hdig⟩
  | hmac => exact ⟨hkey, hch, Memory.wf_writeBytes _ hdig (by simp)⟩
  | ldk _ hloaded => exact ⟨hloaded, hch, hdig⟩
  | clr => exact ⟨rfl, rfl, rfl⟩
  | _ => exact ⟨hkey, hch, hdig⟩

/-- Settles O40: block writes inside a buffer keep its form, and reset empties it. -/
theorem stepKeepsBuffersCanonical : Obligations.StepKeepsBuffersCanonical := by
  intro s u hs h
  cases step_move h with
  | sequencer _ heffect | host _ _ heffect => exact heffect.buffersCanonical hs
  | schedule => exact hs
  | reset => exact ⟨rfl, rfl, rfl⟩

end Sys2Proof.Machine
end

section
/-! The invariant of the block (10_state.md R40): reset meets it, every step keeps it, and under it no step faults and a busy
block advances. In IDLE to DONE it is said by place in the pipeline: the results of the stages passed, and no value yet for
those to come. -/

namespace Sys2Proof.Machine

/-! ## The invariant by place in the pipeline -/

/-- What holds from STAGE `k` to DONE: the line of R40 whose range begins at `k`. -/
def StageResult (s : State) : Nat → Prop
  | 1 => s.time.isSome = true ∧ s.klen.isSome = true ∧ s.cand.isSome = true
  | 2 => ∃ t v, s.time = some t ∧ s.ctr = some v ∧ v.toNat = t.toNat / 30
  | 3 => ∃ v, s.ctr = some v ∧ ∀ i < 8, s.readByte .ch i = some (beByte64 v i)
  | 4 => ∃ n, s.klen = some n ∧ 1 ≤ n.toNat ∧ n.toNat ≤ 100
  | 5 => ∃ n key msg, s.klen = some n ∧ s.memRead .key 0 n.toNat = .ok key ∧ s.memRead .ch 0 8 = .ok msg ∧
      s.memRead .dig 0 20 = .ok (config.hmacSha1 key msg).toList
  | 6 => ∃ b o, s.readByte .dig 19 = some b ∧ s.off = some o ∧ o.toNat = b.toNat % 16
  | 7 => ∃ o bs w, s.off = some o ∧ s.memRead .dig o.toNat 4 = .ok bs ∧ s.win = some w ∧ w.toNat = be bs
  | 8 => ∃ w h, s.win = some w ∧ s.th = some h ∧ h.toNat = w.toNat % 2 ^ 31
  | 9 => ∃ h c, s.th = some h ∧ s.code = some c ∧ c.toNat = h.toNat % 1000000 ∧ c.toNat ≤ 999999
  | 10 => ∃ c d, s.code = some c ∧ s.cand = some d ∧ (s.matchFlag = true ↔ c.toNat = d.toNat)
  | _ => True

/-- What the stage before STAGE `k` writes is still as GO leaves it. -/
def StagePending (s : State) : Nat → Prop
  | 2 => s.ctr = none
  | 3 => s.ch = []
  | 5 => s.dig = []
  | 6 => s.off = none
  | 7 => s.win = none
  | 8 => s.th = none
  | 9 => s.code = none
  | 10 => s.matchFlag = false
  | _ => True

/-- The key bytes are those that LDK leaves for KLEN (40_host_commands.md R122). -/
structure KeyMatchesLength (s : State) : Prop where
  unloaded : s.klen = none → s.key = []
  loaded : ∀ n, s.klen = some n → ∀ i, (s.readByte .key i).isSome = true ↔ (n.toNat ≤ 100 ∧ i < n.toNat)

/-- The invariant in IDLE to DONE. -/
structure PipelineInvariant (s : State) : Prop where
  legal : s.stage.toNat ≤ 10
  passed : ∀ k, 1 ≤ k → k ≤ s.stage.toNat → StageResult s k
  pending : ∀ k, s.stage.toNat < k → k ≤ 10 → StagePending s k
  key : KeyMatchesLength s
  canonical : BuffersCanonical s
  cause : s.cause = 0

theorem StageInvariant.cause_eq_zero {s : State} (hs : StageInvariant s) (h : s.stage.toNat ≤ 10) : s.cause = 0 := by
  obtain h0 | ⟨h1, h9⟩ | h10 :
      s.stage.toNat = 0 ∨ (1 ≤ s.stage.toNat ∧ s.stage.toNat ≤ 9) ∨ s.stage.toNat = 10 := by omega
  · obtain ⟨-, -, -, -, -, -, -, -, hcause⟩ := hs.blank h0
    exact hcause
  · exact (hs.running h1 h9).2
  · exact (hs.verified h10).1

theorem StageInvariant.matchFlag_eq_false {s : State} (hs : StageInvariant s) (h : s.stage.toNat < 10) :
    s.matchFlag = false := by
  obtain h0 | h1 : s.stage.toNat = 0 ∨ 1 ≤ s.stage.toNat := by omega
  · obtain ⟨-, -, -, -, -, -, -, hmatch, -⟩ := hs.blank h0
    exact hmatch
  · exact (hs.running h1 (by omega)).1

theorem StageInvariant.stageResult {s : State} (hs : StageInvariant s) (h : s.stage.toNat ≤ 10) {k : Nat} (hk1 : 1 ≤ k)
    (hk : k ≤ s.stage.toNat) : StageResult s k := by
  have hk10 : k ≤ 10 := hk.trans h
  interval_cases k
  · obtain ⟨htime, hklen, hcand, -⟩ := hs.loaded hk
    exact ⟨htime, hklen, hcand⟩
  · exact hs.counter hk
  · exact hs.challenge hk
  · exact hs.checked hk h
  · exact hs.digest hk h
  · exact hs.offset hk h
  · exact hs.window hk h
  · exact hs.masked hk h
  · exact hs.reduced hk h
  · exact (hs.verified (h.antisymm hk)).2

theorem BlockInvariant.stagePending {s : State} (hs : BlockInvariant s) {k : Nat} (hk : s.stage.toNat < k)
    (hk10 : k ≤ 10) : StagePending s k := by
  interval_cases k
  · trivial
  · trivial
  · exact hs.ctrLater hk
  · exact hs.chLater hk
  · trivial
  · exact hs.digLater hk
  · exact hs.offLater hk
  · exact hs.winLater hk
  · exact hs.thLater hk
  · exact hs.codeLater hk
  · exact hs.rule.matchFlag_eq_false hk

theorem BlockInvariant.pipelineInvariant {s : State} (hs : BlockInvariant s) (h : s.stage.toNat ≤ 10) :
    PipelineInvariant s where
  legal := h
  passed _ := hs.rule.stageResult h
  pending _ := hs.stagePending
  key := ⟨hs.keyUnloaded, hs.keyLoaded⟩
  canonical := hs.canonical
  cause := hs.rule.cause_eq_zero h

theorem PipelineInvariant.stageInvariant {s : State} (hs : PipelineInvariant s) : StageInvariant s where
  legal := hs.legal.trans (by decide)
  blank h :=
    ⟨hs.pending 2 (by omega) (by decide), hs.pending 3 (by omega) (by decide), hs.pending 5 (by omega) (by decide),
      hs.pending 6 (by omega) (by decide), hs.pending 7 (by omega) (by decide), hs.pending 8 (by omega) (by decide),
      hs.pending 9 (by omega) (by decide), hs.pending 10 (by omega) (by decide), hs.cause⟩
  loaded h := by
    obtain ⟨htime, hklen, hcand⟩ := hs.passed 1 (by decide) h
    exact ⟨htime, hklen, hcand, fun n hn hle i hi => (hs.key.loaded n hn i).2 ⟨hle, hi⟩⟩
  counter := hs.passed 2 (by decide)
  challenge := hs.passed 3 (by decide)
  checked h _ := hs.passed 4 (by decide) h
  digest h _ := hs.passed 5 (by decide) h
  offset h _ := hs.passed 6 (by decide) h
  window h _ := hs.passed 7 (by decide) h
  masked h _ := hs.passed 8 (by decide) h
  reduced h _ := hs.passed 9 (by decide) h
  verified h := ⟨hs.cause, hs.passed 10 (by decide) h.ge⟩
  failed h := absurd hs.legal (by omega)
  running _ h := ⟨hs.pending 10 (by omega) (by decide), hs.cause⟩

theorem PipelineInvariant.blockInvariant {s : State} (hs : PipelineInvariant s) : BlockInvariant s where
  rule := hs.stageInvariant
  canonical := hs.canonical
  keyUnloaded := hs.key.unloaded
  keyLoaded := hs.key.loaded
  ctrLater h := hs.pending 2 h (by decide)
  chLater h := hs.pending 3 h (by decide)
  digLater h := hs.pending 5 h (by decide)
  offLater h := hs.pending 6 h (by decide)
  winLater h := hs.pending 7 h (by decide)
  thLater h := hs.pending 8 h (by decide)
  codeLater h := hs.pending 9 h (by decide)

/-! ## Reset and the agents' lists -/

theorem pipelineInvariant_clearBlock (s : State) : PipelineInvariant (clearBlock s) where
  legal := Nat.zero_le 10
  passed k h1 h0 := absurd h0 (Nat.not_le_of_lt h1)
  pending k _ hk := by interval_cases k <;> trivial
  key := ⟨fun _ => rfl, fun n hn => by cases hn⟩
  canonical := ⟨rfl, rfl, rfl⟩
  cause := rfl

/-- Settles O38: the reset state is what clearing leaves. -/
theorem resetMeetsInvariant : Obligations.ResetMeetsInvariant :=
  fun bs ts => (pipelineInvariant_clearBlock ((State.reset.setHostIn bs).setTurns ts)).blockInvariant

/-- The invariant does not speak of what the host has sent or of the schedule. -/
theorem BlockInvariant.setHostIn_setTurns {s : State} (hs : BlockInvariant s) (bs : List Byte) (ts : List Turn) :
    BlockInvariant ((s.setTurns ts).setHostIn bs) :=
  { hs with rule := { hs.rule with } }

/-! ## The sequencer's operations -/

/-- The invariant one stage on: a new result, and nothing changed that the other stages speak of. For an update of the one
item a stage writes, the frame (from `hframe` on) holds by definition, stage by stage. -/
theorem BlockInvariant.advance {s u : State} (hs : BlockInvariant s) (op : BitVec 4) (k : Nat)
    (hop : Encoded.stage op = .stage s.stage) (hcanonical : BuffersCanonical u) (hnew : StageResult u (k + 1))
    (hk : op.toNat = k := by rfl) (hk10 : k < 10 := by decide) (hu : u.stage.toNat = k + 1 := by rfl)
    (hframe : u.klen = s.klen ∧ u.key = s.key ∧ u.cause = s.cause := by exact ⟨rfl, rfl, rfl⟩)
    (hkept : ∀ j, 1 ≤ j → j ≤ k → StageResult s j → StageResult u j := by
      intro j _ _; interval_cases j <;> exact id)
    (hlater : ∀ j, k + 2 ≤ j → j ≤ 10 → StagePending s j → StagePending u j := by
      intro j _ _; interval_cases j <;> exact id) : BlockInvariant u := by
  have hstage : s.stage.toNat = k := by rw [← hk, Encoded.stage.inj hop]
  have hpipe : PipelineInvariant s := hs.pipelineInvariant (by omega)
  obtain ⟨hklen, hkey, hcause⟩ := hframe
  refine PipelineInvariant.blockInvariant ⟨by omega, fun j h1 hj => ?passed, fun j hj h10 => ?pending,
    ⟨?unloaded, ?loaded⟩, hcanonical, hcause.trans hpipe.cause⟩
  case passed =>
    obtain hlast | hbefore : j = k + 1 ∨ j ≤ k := by omega
    · exact hlast ▸ hnew
    · exact hkept j h1 hbefore (hpipe.passed j h1 (by omega))
  case pending => exact hlater j (by omega) h10 (hpipe.pending j (by omega) h10)
  case unloaded => rw [hklen, hkey]; exact hpipe.key.unloaded
  case loaded => rw [hklen]; simpa only [State.readByte, State.buffer_key, hkey] using hpipe.key.loaded

/-- KCHK's exception leads to the state that R40 describes for FAIL. -/
theorem BlockInvariant.raiseInvalidSecretLength {s : State} {n : Byte} (hs : BlockInvariant s) (hstage : s.stage = 3)
    (hn : s.klen = some n) (hbad : n.toNat = 0 ∨ 101 ≤ n.toNat) :
    BlockInvariant (raiseInvalidSecretLength s) := by
  have hnat : s.stage.toNat = 3 := by rw [hstage]; rfl
  have hloaded := hs.rule.loaded (by omega)
  have hcounter := hs.rule.counter (by omega)
  have hchallenge := hs.rule.challenge (by omega)
  have hdig := hs.digLater (by omega)
  have hoff := hs.offLater (by omega)
  have hwin := hs.winLater (by omega)
  have hth := hs.thLater (by omega)
  have hcode := hs.codeLater (by omega)
  constructor
  case rule =>
    constructor
    case loaded => exact fun _ => hloaded
    case counter => exact fun _ => hcounter
    case challenge => exact fun _ => hchallenge
    case failed => exact fun _ => ⟨rfl, rfl, ⟨n, hn, hbad⟩, hdig, hoff, hwin, hth, hcode⟩
    all_goals simp
  case canonical => exact hs.canonical
  case keyUnloaded => exact hs.keyUnloaded
  case keyLoaded => exact hs.keyLoaded
  all_goals simp

/-- The operation that STAGE names keeps the invariant: a wait stage changes nothing, KCHK may raise, and every other stage
adds its own result. -/
theorem Effect.blockInvariant_of_stage {i : Instr} {s u : State} (h : Effect s i u) (hop : encode i = .stage s.stage)
    (hs : BlockInvariant s) : BlockInvariant u := by
  have hcanonical := h.buffersCanonical hs.canonical
  cases h with
  | waiting | ignored => exact hs
  | @tdiv t ht => exact hs.advance 1 1 hop hcanonical ⟨t, _, ht, rfl, timeCounter_toNat t⟩
  | @tenc v hv =>
    have hch : ∀ i < 8, (s.ch.writeBytes 0 (challengeBytes v)).read i = some (beByte64 v i) :=
      fun i hi => by rw [read_writeBytes_challengeBytes, if_pos hi]
    exact hs.advance 2 2 hop hcanonical ⟨v, hv, hch⟩
  | pass hn hok => exact hs.advance 3 3 hop hcanonical ⟨_, hn, (keyLengthOk_iff _).1 hok⟩
  | raise hn hbad =>
    exact hs.raiseInvalidSecretLength (Encoded.stage.inj hop).symm hn ((keyLengthOk_eq_false_iff _).1 hbad)
  | @hmac n key msg hn hkey hmsg =>
    have hdig : ((s.setDig (s.dig.writeBytes 0 (config.hmacSha1 key msg).toList)).setStage 5).memRead .dig 0 20 =
        .ok (config.hmacSha1 key msg).toList :=
      State.memRead_zero_of_readByte (Nat.le_refl 20) Vector.length_toList
        fun i hi => (read_writeBytes_digest s.dig _ i).trans (if_pos hi)
    exact hs.advance 4 4 hop hcanonical ⟨n, key, msg, hn, hkey, hmsg, hdig⟩
  | @offs b hb => exact hs.advance 5 5 hop hcanonical ⟨b, _, hb, rfl, offsetOf_toNat b⟩
  | @wasm o bs ho hbs =>
    have hw : (windowOf bs).toNat = be bs := windowOf_toNat (State.memRead_eq_ok.1 hbs).2.1
    exact hs.advance 6 6 hop hcanonical ⟨o, bs, _, ho, hbs, rfl, hw⟩
  | @msk31 w hw => exact hs.advance 7 7 hop hcanonical ⟨w, _, hw, rfl, maskWindow_toNat w⟩
  | @modr x hx => exact hs.advance 8 8 hop hcanonical ⟨x, _, hx, rfl, reduceCode_toNat x, reduceCode_le x⟩
  | @vcmp c d hc hd =>
    have hmatch : codeMatches c d = true ↔ c.toNat = d.toNat := by rw [codeMatches_eq, decide_eq_true_iff]
    exact hs.advance 9 9 hop hcanonical ⟨c, d, hc, hd, hmatch⟩
  | ldt | ldk | ldc | go | clr => cases hop

/-! ## The host's commands -/

/-- The invariant in IDLE speaks of the inputs through the key alone. -/
theorem BlockInvariant.load {s u : State} (hs : BlockInvariant s) (hidle : s.stage = 0) (hkey : KeyMatchesLength u)
    (hcanonical : BuffersCanonical u) (hstage : u.stage = s.stage) (hcause : u.cause = s.cause)
    (hpending : ∀ j, StagePending s j → StagePending u j) : BlockInvariant u := by
  have hs0 : s.stage.toNat = 0 := by rw [hidle]; rfl
  have hu0 : u.stage.toNat = 0 := by rw [hstage, hs0]
  have hpipe : PipelineInvariant s := hs.pipelineInvariant (by omega)
  refine PipelineInvariant.blockInvariant ⟨by omega, fun j h1 hj => ?passed, fun j hj h10 => ?pending, hkey, hcanonical,
    hcause.trans hpipe.cause⟩
  case passed => omega
  case pending => exact hpending j (hpipe.pending j (by omega) h10)

/-- A host command keeps the invariant: a load in IDLE changes an input, GO finds the inputs loaded, CLR clears. -/
theorem Effect.blockInvariant_of_command {i : Instr} {s u : State} (h : Effect s i u) (hwf : i.wf = true)
    (hf : i.format = .command) (hs : BlockInvariant s) : BlockInvariant u := by
  have hcanonical := h.buffersCanonical hs.canonical
  cases h with
  | waiting | ignored => exact hs
  | clr => exact (pipelineInvariant_clearBlock s).blockInvariant
  | go hidle hloaded =>
    have hcause : s.cause = 0 := hs.rule.cause_eq_zero (by simp [hidle])
    exact hs.advance 0 0 (congrArg _ hidle.symm) hcanonical (State.inputsLoaded_iff.1 hloaded)
      (hframe := ⟨rfl, rfl, hcause.symm⟩) (hlater := fun j _ _ => by interval_cases j <;> simp [StagePending])
  | ldt hidle | ldc hidle =>
    exact hs.load hidle ⟨hs.keyUnloaded, hs.keyLoaded⟩ hcanonical rfl rfl fun _ => id
  | @ldk len k hidle =>
    refine hs.load hidle ⟨fun hnone => ?unloaded, fun n hn => ?loaded⟩ hcanonical rfl rfl fun _ => id
    case unloaded => cases hnone
    case loaded =>
      cases hn
      exact loadedKey_isSome (wf_ldk_iff.1 hwf)
  | _ => cases hf

/-- Settles O37, by who moves. -/
theorem stepKeepsInvariant : Obligations.StepKeepsInvariant := by
  intro s u hs h
  cases step_move h with
  | @sequencer ts _ _ hop heffect => exact heffect.blockInvariant_of_stage hop (hs.setHostIn_setTurns s.hostIn ts)
  | @host ts rest _ _ hwf hf heffect => exact heffect.blockInvariant_of_command hwf hf (hs.setHostIn_setTurns rest ts)
  | schedule ts => exact hs.setHostIn_setTurns s.hostIn ts
  | reset => exact (pipelineInvariant_clearBlock _).blockInvariant

theorem BlockInvariant.of_runSteps {n : Nat} {s u : State} (hs : BlockInvariant s) (h : runSteps n s = .next u) :
    BlockInvariant u := by
  induction n generalizing s with
  | zero => cases h; exact hs
  | succ n ih =>
    cases hstep : step s with
    | next s' => exact ih (stepKeepsInvariant s s' hs hstep) ((runSteps_succ hstep).symm.trans h)
    | fault f => simp [runSteps, hstep] at h
    | refused r => simp [runSteps, hstep] at h

/-- Settles O39: the invariant holds at reset and along every run. -/
theorem reachableStatesMeetRuleForty : Obligations.ReachableStatesMeetRuleForty :=
  fun bs ts _ _ h => ((resetMeetsInvariant bs ts).of_runSteps h).rule

end Sys2Proof.Machine
end

section
/-! Progress: under the invariant every operation that STAGE names completes, so no step faults, and a busy block goes on to
DONE or FAIL (10_state.md R22; 46_verifier_and_wait_stages.md R214; 60_exceptions.md R238; 70_reset_and_hazards.md R284). -/

namespace Sys2Proof.Machine

/-! ## The sequencer is never stuck -/

/-- From stage 5 to DONE all twenty bytes of DIG have values. -/
theorem StageInvariant.exists_digest {s : State} (hs : StageInvariant s) (h5 : 5 ≤ s.stage.toNat)
    (h10 : s.stage.toNat ≤ 10) : ∃ dig : List Byte, dig.length = 20 ∧ ∀ i < 20, s.readByte .dig i = dig[i]? := by
  obtain ⟨-, _, _, -, -, -, hdig⟩ := hs.digest h5 h10
  obtain ⟨-, hlen, hbytes⟩ := State.memRead_eq_ok.1 hdig
  exact ⟨_, hlen, fun i hi => by rw [← hbytes i hi, Nat.zero_add]⟩

/-- Each stage finds what the stages before it have left. -/
theorem BlockInvariant.exec_completes {s : State} (hs : BlockInvariant s) {i : Instr}
    (hdec : decodeStage s.stage = .ok i) : ∃ u, exec i s = .next u := by
  obtain ⟨h, rfl⟩ | ⟨h, rfl⟩ | ⟨h, rfl⟩ | ⟨h, rfl⟩ | ⟨h, rfl⟩ | ⟨h, rfl⟩ | ⟨h, rfl⟩ | ⟨h, rfl⟩ | ⟨h, rfl⟩ | ⟨h, rfl⟩ |
    ⟨h, rfl⟩ | ⟨h, rfl⟩ := decodeStage_cases hdec
  · exact ⟨s, exec_idle s⟩
  · obtain ⟨htime, -⟩ := hs.rule.loaded (by simp [h])
    obtain ⟨t, ht⟩ := Option.isSome_iff_exists.1 htime
    exact ⟨_, exec_tdiv_eq_next.2 ⟨t, ht, rfl⟩⟩
  · obtain ⟨-, v, -, hv, -⟩ := hs.rule.counter (by simp [h])
    exact ⟨_, exec_tenc_eq_next.2 ⟨v, hv, rfl⟩⟩
  · obtain ⟨-, hklen, -⟩ := hs.rule.loaded (by simp [h])
    obtain ⟨n, hn⟩ := Option.isSome_iff_exists.1 hklen
    exact ⟨_, exec_kchk_eq_next.2 ⟨n, hn, rfl⟩⟩
  · obtain ⟨n, hn, -, hle⟩ := hs.rule.checked (by simp [h]) (by simp [h])
    obtain ⟨-, -, -, hkey⟩ := hs.rule.loaded (by simp [h])
    obtain ⟨v, -, hch⟩ := hs.rule.challenge (by simp [h])
    obtain ⟨key, hkeyRead⟩ := s.memRead_of_isSome .key n.toNat 0 (by simpa using hle) (by simpa using hkey n hn hle)
    obtain ⟨msg, hmsgRead⟩ := s.memRead_of_isSome .ch 8 0 (by simp) fun i hi => by simp [hch i hi]
    exact ⟨_, exec_hmac_eq_next.2 ⟨n, key, msg, hn, hkeyRead, hmsgRead, rfl⟩⟩
  · obtain ⟨dig, hlen, hdig⟩ := hs.rule.exists_digest (by simp [h]) (by simp [h])
    have hlast : s.readByte .dig 19 = some dig[19] := (hdig 19 (by decide)).trans (List.getElem?_eq_getElem _)
    exact ⟨_, exec_offs_eq_next.2 ⟨_, hlast, rfl⟩⟩
  · obtain ⟨dig, hlen, hdig⟩ := hs.rule.exists_digest (by simp [h]) (by simp [h])
    obtain ⟨-, o, -, ho, -⟩ := hs.rule.offset (by simp [h]) (by simp [h])
    exact ⟨_, exec_wasm_eq_next.2 ⟨o, _, ho, State.memRead_window_of_digest o hlen hdig, rfl⟩⟩
  · obtain ⟨-, -, w, -, -, hw, -⟩ := hs.rule.window (by simp [h]) (by simp [h])
    exact ⟨_, exec_msk31_eq_next.2 ⟨w, hw, rfl⟩⟩
  · obtain ⟨-, x, -, hx, -⟩ := hs.rule.masked (by simp [h]) (by simp [h])
    exact ⟨_, exec_modr_eq_next.2 ⟨x, hx, rfl⟩⟩
  · obtain ⟨-, c, -, hc, -⟩ := hs.rule.reduced (by simp [h]) (by simp [h])
    obtain ⟨-, -, hcand, -⟩ := hs.rule.loaded (by simp [h])
    obtain ⟨d, hd⟩ := Option.isSome_iff_exists.1 hcand
    exact ⟨_, exec_vcmp_eq_next.2 ⟨c, d, hc, hd, rfl⟩⟩
  · exact ⟨s, exec_done s⟩
  · exact ⟨s, exec_fail s⟩

theorem BlockInvariant.sequencerStep_completes {s : State} (hs : BlockInvariant s) :
    ∃ u, sequencerStep s = .next u := by
  obtain ⟨i, hdec, -⟩ := stageDecoderIsTotal.2 s.stage hs.rule.legal
  obtain ⟨u, hexec⟩ := hs.exec_completes hdec
  exact ⟨u, sequencerStep_eq_next.2 ⟨i, hdec, hexec⟩⟩

/-! ## No fault -/

/-- A well-formed host command completes or is refused (40_host_commands.md R120). -/
theorem exec_command_ne_fault {i : Instr} {s : State} (hwf : i.wf = true) (hf : i.format = .command) (f : Fault) :
    exec i s ≠ .fault f := by
  intro h
  obtain ⟨haccepted, hignored, hrefused⟩ := acceptanceByStage i s hwf hf
  cases ha : accepted i s with
  | true =>
    obtain ⟨u, hu⟩ := haccepted ha
    cases h.symm.trans hu
  | false =>
    by_cases hgo : i = .go ∧ s.stage = 0
    · cases h.symm.trans (hrefused ha hgo.1 hgo.2)
    · cases h.symm.trans (hignored ha hgo)

theorem hostStep_ne_fault (s : State) (f : Fault) : hostStep s ≠ .fault f := by
  unfold hostStep
  split
  · simp
  · split
    · next i rest hdec => exact exec_command_ne_fault (decodeCommand_wf hdec) (format_of_decodeCommand hdec) f
    · simp

/-- A step is an agent's, or changes the schedule at most, or is reset: only an agent's can fault. -/
theorem step_eq_fault {s : State} {f : Fault} (h : step s = .fault f) :
    ∃ ts, sequencerStep (s.setTurns ts) = .fault f ∨ hostStep (s.setTurns ts) = .fault f := by
  unfold step at h
  split at h
  · refine ⟨s.turns, ?_⟩
    unfold defaultStep at h
    split at h
    · exact .inr h
    · exact .inl h
  · next tn ts _ =>
    cases tn with
    | sequencer => exact ⟨ts, .inl h⟩
    | host => exact ⟨ts, .inr h⟩
    | wait =>
      simp only [turnStep] at h
      split at h
      · exact ⟨_, .inl h⟩
      · cases h
    | observe | reset => cases h
    | sampleCode =>
      simp only [turnStep, sampleCodeStep] at h
      split at h <;> cases h

/-- Settles O41: the sequencer's operation completes, and no command faults. -/
theorem noFaultUnderInvariant : Obligations.NoFaultUnderInvariant := by
  intro s f hs h
  obtain ⟨ts, hseq | hhost⟩ := step_eq_fault h
  · obtain ⟨u, hu⟩ := (hs.setHostIn_setTurns s.hostIn ts).sequencerStep_completes
    cases hseq.symm.trans hu
  · exact hostStep_ne_fault _ f hhost

/-! ## A busy block advances -/

/-- The operation of a busy stage moves STAGE. -/
theorem Effect.stage_ne_of_stageCode {i : Instr} {s u : State} {op : BitVec 4} (h : Effect s i u)
    (hop : encode i = .stage op) (hbusy : 1 ≤ op.toNat ∧ op.toNat ≤ 9) : u.stage ≠ op := by
  cases h with
  | waiting hi => obtain rfl | rfl | rfl := hi <;> cases hop <;> simp at hbusy
  | ignored hf => cases (format_of_encode_stage hop).symm.trans hf
  | ldt | ldk | ldc | go | clr => cases hop
  | _ =>
    cases hop
    simp

/-- The sequencer's step of a busy block leads to the next stage, or from KCHK with a bad key length to FAIL. -/
theorem BlockInvariant.exists_sequencerStep {s : State} (hs : BlockInvariant s) (hbusy : s.busy = true) :
    ∃ u, sequencerStep s = .next u ∧ SameAgents s u ∧ u.klen = s.klen ∧
      ((u.stage.toNat = s.stage.toNat + 1) ∨
        (u.stage = 11 ∧ s.stage = 3 ∧ ∃ n, s.klen = some n ∧ (n.toNat = 0 ∨ 101 ≤ n.toNat))) := by
  obtain ⟨u, hu⟩ := hs.sequencerStep_completes
  obtain ⟨i, hdec, hexec⟩ := sequencerStep_eq_next.1 hu
  have hop := encode_of_decodeStage hdec
  have heffect := exec_effect hexec
  obtain ⟨-, hklen, -⟩ := heffect.sameInputs_of_stage (format_of_encode_stage hop)
  refine ⟨u, hu, heffect.sameAgents, hklen, ?_⟩
  obtain hsame | ⟨hnext, -⟩ | hraise := heffect.stage_of_stageCode hop
  · exact absurd hsame (heffect.stage_ne_of_stageCode hop (State.busy_iff.1 hbusy))
  · exact .inl hnext
  · exact .inr hraise

/-- Settles O42, from the step a busy block makes. -/
theorem busySequencerProgresses : Obligations.BusySequencerProgresses := by
  intro s hs hbusy
  obtain ⟨u, hu, -, -, hnext | ⟨hfail, hthree, -⟩⟩ := hs.exists_sequencerStep hbusy
  · exact ⟨u, hu, .inl hnext⟩
  · exact ⟨u, hu, .inr ⟨hthree, hfail⟩⟩

/-- On the default schedule a busy block makes `m` steps of STAGE in `m` steps, up to KCHK, and with a good key length up to
DONE. -/
theorem BlockInvariant.exists_runSteps {s : State} (hs : BlockInvariant s) (hturns : s.turns = [])
    (h1 : 1 ≤ s.stage.toNat) {m : Nat} (hm : s.stage.toNat + m ≤ 10)
    (hlen : s.stage.toNat + m ≤ 3 ∨ ∃ n, s.klen = some n ∧ 1 ≤ n.toNat ∧ n.toNat ≤ 100) :
    ∃ u, runSteps m s = .next u ∧ SameAgents s u ∧ u.klen = s.klen ∧
      u.stage.toNat = s.stage.toNat + m := by
  induction m generalizing s with
  | zero => exact ⟨s, rfl, ⟨rfl, rfl⟩, rfl, rfl⟩
  | succ m ih =>
    have hbusy : s.busy = true := State.busy_iff.2 ⟨h1, by omega⟩
    obtain ⟨v, hv, ⟨hhost, htail⟩, hklen, hnext | ⟨-, hthree, n, hn, hbad⟩⟩ := hs.exists_sequencerStep hbusy
    · have hstep : step s = .next v := (step_busy hturns hbusy).trans hv
      obtain ⟨u, hu, ⟨hhost', htail'⟩, hklen', hstage⟩ := ih (stepKeepsInvariant s v hs hstep) (htail.trans hturns)
        (by omega) (by omega) (by rw [hnext, hklen]; simpa only [Nat.add_assoc, Nat.add_comm 1] using hlen)
      exact ⟨u, (runSteps_succ hstep).trans hu, ⟨hhost'.trans hhost, htail'.trans htail⟩, hklen'.trans hklen,
        by omega⟩
    · obtain hlow | ⟨n', hn', hgood⟩ := hlen
      · simp [hthree] at hlow
      · cases hn.symm.trans hn'
        omega

/-- There is a verdict exactly while done or err, and it is Accept exactly with done and match (40_host_commands.md R127). -/
theorem Outputs.verdict_isSome_iff (o : Outputs) : o.verdict.isSome = true ↔ o.done = true ∨ o.err = true := by
  simp only [Outputs.verdict, Bool.and_eq_true, Bool.or_eq_true]
  split
  · next h => simp [h.1]
  · split
    · next h => simpa using h
    · next h => simpa using h

theorem Outputs.verdict_eq_accept_iff (o : Outputs) :
    o.verdict = some .accept ↔ o.done = true ∧ o.matchOut = true := by
  simp only [Outputs.verdict, Bool.and_eq_true]
  split
  · next h => simpa using h
  · next h => split <;> simpa using h

theorem State.verdict_isSome_iff {s : State} : s.outputs.verdict.isSome = true ↔ s.stage = 10 ∨ s.stage = 11 := by
  rw [Outputs.verdict_isSome_iff, ← State.done_iff, ← State.err_iff, State.outputs]

theorem State.verdict_eq_accept_iff {s : State} :
    s.outputs.verdict = some .accept ↔ s.stage = 10 ∧ s.matchFlag = true := by
  rw [Outputs.verdict_eq_accept_iff, ← State.done_iff, State.outputs]

/-- Settles O43: a good length lets every stage advance; a bad one is found out before stage 4, and KCHK raises. -/
theorem transactionEnds : Obligations.TransactionEnds := by
  refine ⟨fun s n hs hbusy hturns hn => ⟨fun hmin hmax => ?good, fun hbad => ?bad⟩,
    fun s => ⟨State.verdict_isSome_iff, State.verdict_eq_accept_iff⟩⟩
  case good =>
    obtain ⟨h1, h9⟩ := State.busy_iff.1 hbusy
    obtain ⟨u, hu, -, -, hstage⟩ := hs.exists_runSteps hturns h1 (m := 10 - s.stage.toNat) (by omega)
      (.inr ⟨n, hn, hmin, hmax⟩)
    exact ⟨u, hu, BitVec.eq_of_toNat_eq (hstage.trans (Nat.add_sub_cancel' (by omega)))⟩
  case bad =>
    obtain ⟨h1, h9⟩ := State.busy_iff.1 hbusy
    have h3 : s.stage.toNat ≤ 3 := by
      by_contra hlater
      obtain ⟨n', hn', hgood⟩ := hs.rule.checked (by omega) (by omega)
      cases hn.symm.trans hn'
      omega
    obtain ⟨u, hu, ⟨-, hturns'⟩, hklen, hstage⟩ := hs.exists_runSteps hturns h1 (m := 3 - s.stage.toNat) (by omega)
      (.inl (by omega))
    have hraise : exec .kchk u = .next (raiseInvalidSecretLength u) :=
      exec_kchk_of_keyLengthOk_eq_false (hklen.trans hn) ((keyLengthOk_eq_false_iff n).2 hbad)
    have hthree : u.stage = 3 := BitVec.eq_of_toNat_eq (hstage.trans (Nat.add_sub_cancel' h3))
    have hlast : runSteps 1 u = .next (raiseInvalidSecretLength u) :=
      runSteps_succ_of_stage 3 (hturns'.trans hturns) hthree (by decide) rfl hraise
    refine ⟨h3, raiseInvalidSecretLength u, ?_, rfl⟩
    rw [show 4 - s.stage.toNat = (3 - s.stage.toNat) + 1 by omega, runSteps_add 1 hu, hlast]

end Sys2Proof.Machine
end

section
/-! Whole transactions: what a run from GO ends with, for a good key and for a bad one, and the pseudo-command TOTP from
reset, whose WAIT and RD stand around such a run (00_scope.md R3; 30_encoding.md R101; 42_key_check.md R152; log 2). -/

namespace Sys2Proof.Machine

/-! ## From the state GO leaves -/

/-- TDIV, TENC and KCHK on a bad key length: the exception. -/
theorem runSteps_three_raises {s : State} {t : BitVec 64} {n : Byte} (hstage : s.stage = 1) (hturns : s.turns = [])
    (ht : s.time = some t) (hn : s.klen = some n) (hbad : n.toNat = 0 ∨ 101 ≤ n.toNat) :
    runSteps 3 s = .next (raiseInvalidSecretLength (((s.setCtr (some (timeCounter config t))).setCh
      (s.ch.writeBytes 0 (challengeBytes (timeCounter config t)))).setStage 3)) :=
  calc runSteps 3 s
    _ = runSteps 2 _ := runSteps_succ_of_stage 1 hturns hstage (by decide) rfl (exec_tdiv_eq_next.2 ⟨t, ht, rfl⟩)
    _ = runSteps 1 _ := runSteps_succ_of_stage 2 hturns rfl (by decide) rfl (exec_tenc_eq_next.2 ⟨_, rfl, rfl⟩)
    _ = runSteps 0 _ := runSteps_succ_of_stage 3 hturns rfl (by decide) rfl
      (exec_kchk_of_keyLengthOk_eq_false hn ((keyLengthOk_eq_false_iff n).2 hbad))

/-- Settles O44: the nine steps of a good key's run, and the three of a bad one's, which write no CODE. -/
theorem transactionComputesCode : Obligations.TransactionComputesCode := by
  intro s t n d key hstage hturns hcause hcode ht hn hd
  refine ⟨fun hmin hmax hlen hkey => ?good, fun hbad => ?bad⟩
  case good =>
    obtain ⟨u, c, hrun, hdone, hcause', hcode', hc, hmatch⟩ :=
      runSteps_nine_computes_code hstage hturns ht hn hd ((keyLengthOk_iff n).2 ⟨hmin, hmax⟩) hlen hkey
    exact ⟨u, c, hrun, hdone, hcause'.trans hcause, hcode', hc, by rw [hmatch, decide_eq_true_iff]⟩
  case bad => exact ⟨_, runSteps_three_raises hstage hturns ht hn hbad, rfl, rfl, rfl, hcode⟩

/-- What the host observes after the exception. -/
theorem outputs_raiseInvalidSecretLength (s : State) : (raiseInvalidSecretLength s).outputs =
    { idle := false, busy := false, done := false, err := true, matchOut := false, causeOut := 1, codeOut := none } := rfl

/-- Settles O51: the exception's outputs are constants. -/
theorem badKeyLengthRejects : Obligations.BadKeyLengthRejects := by
  intro s t n hstage hturns ht hn hbad
  exact ⟨_, runSteps_three_raises hstage hturns ht hn hbad, rfl, outputs_raiseInvalidSecretLength _⟩

/-- What the host observes in DONE. -/
theorem State.outputs_of_done {s : State} (h : s.stage = 10) : s.outputs =
    { idle := false, busy := false, done := true, err := false, matchOut := s.matchFlag, causeOut := s.cause,
      codeOut := s.code } := by
  simp [State.outputs, State.idle, State.busy, State.done, State.err, State.codeOut, h]

/-! ## A run while the host waits -/

/-- A stage operation takes no notice of the schedule. -/
theorem exec_setTurns_of_stage {i : Instr} {s u : State} (hf : i.format = .stage) (h : exec i s = .next u)
    (ts : List Turn) : exec i (s.setTurns ts) = .next (u.setTurns ts) := by
  cases exec_effect h with
  | waiting hi => obtain rfl | rfl | rfl := hi <;> rfl
  | ignored hcommand => cases hf.symm.trans hcommand
  | tdiv ht => exact exec_tdiv_eq_next.2 ⟨_, ht, rfl⟩
  | tenc hv => exact exec_tenc_eq_next.2 ⟨_, hv, rfl⟩
  | pass hn hok => exact exec_kchk_of_keyLengthOk hn hok
  | raise hn hbad => exact exec_kchk_of_keyLengthOk_eq_false hn hbad
  | hmac hn hkey hmsg => exact exec_hmac_eq_next.2 ⟨_, _, _, hn, hkey, hmsg, rfl⟩
  | offs hb => exact exec_offs_eq_next.2 ⟨_, hb, rfl⟩
  | wasm ho hb => exact exec_wasm_eq_next.2 ⟨_, _, ho, hb, rfl⟩
  | msk31 hw => exact exec_msk31_eq_next.2 ⟨_, hw, rfl⟩
  | modr hx => exact exec_modr_eq_next.2 ⟨_, hx, rfl⟩
  | vcmp hc hd => exact exec_vcmp_eq_next.2 ⟨_, _, hc, hd, rfl⟩
  | ldt | ldk | ldc | go | clr => cases hf

/-- While the block is busy, a WAIT lets it make the steps of the default schedule (30_encoding.md R101). -/
theorem step_setTurns_wait {s u : State} (hturns : s.turns = []) (hbusy : s.busy = true) (h : step s = .next u)
    (ts : List Turn) : u.turns = [] ∧ step (s.setTurns (.wait :: ts)) = .next (u.setTurns (.wait :: ts)) := by
  rw [step_busy hturns hbusy] at h
  obtain ⟨i, hdec, hexec⟩ := sequencerStep_eq_next.1 h
  refine ⟨(exec_effect hexec).sameAgents.2.trans hturns, ?_⟩
  rw [step_wait_of_busy (s := s.setTurns (.wait :: ts)) rfl hbusy]
  exact sequencerStep_eq_next.2 ⟨i, hdec, exec_setTurns_of_stage (wf_and_format_of_decodeStage hdec).2 hexec _⟩

theorem runSteps_setTurns_wait {n : Nat} {s u : State} (hturns : s.turns = []) (h : runSteps n s = .next u)
    (hbusy : ∀ m < n, ∃ v, runSteps m s = .next v ∧ v.busy = true) (ts : List Turn) :
    runSteps n (s.setTurns (.wait :: ts)) = .next (u.setTurns (.wait :: ts)) := by
  induction n generalizing s with
  | zero => cases h; rfl
  | succ n ih =>
    obtain ⟨_, hzero, hbusy0⟩ := hbusy 0 (Nat.succ_pos n)
    cases hzero
    cases hstep : step s with
    | next v =>
      obtain ⟨hturns', hwait⟩ := step_setTurns_wait hturns hbusy0 hstep ts
      rw [runSteps_succ hwait]
      refine ih hturns' ((runSteps_succ hstep).symm.trans h) fun m hm => ?_
      rw [← runSteps_succ hstep]
      exact hbusy (m + 1) (Nat.succ_lt_succ hm)
    | fault f => simp [runSteps, hstep] at h
    | refused r => simp [runSteps, hstep] at h

/-- A run to its end under WAIT, the end of the wait, and RD. -/
theorem runSteps_setTurns_wait_observe {n : Nat} {s u : State} (hturns : s.turns = []) (h : runSteps n s = .next u)
    (hbusy : ∀ m < n, ∃ v, runSteps m s = .next v ∧ v.busy = true) (hend : u.busy = false) :
    runSteps (n + 2) (s.setTurns [.wait, .observe]) = .next (u.setTurns []) :=
  calc runSteps (n + 2) (s.setTurns [.wait, .observe])
    _ = runSteps 2 (u.setTurns [.wait, .observe]) := runSteps_add 2 (runSteps_setTurns_wait hturns h hbusy _)
    _ = runSteps 1 (u.setTurns [.observe]) := runSteps_succ (step_wait_of_not_busy rfl hend)
    _ = runSteps 0 (u.setTurns []) := runSteps_succ (step_observe rfl)

/-! ## The pseudo-command TOTP -/

/-- The length byte that LDK carries for the key `k`. -/
def lengthByte (k : List Byte) : Byte := BitVec.ofNat 8 k.length

theorem lengthByte_toNat {k : List Byte} (hk : k.length ≤ 255) : (lengthByte k).toNat = k.length :=
  Nat.mod_eq_of_lt (Nat.lt_succ_of_le hk)

/-- The state that TOTP's loads and GO lead to from reset. -/
def startedState (k : List Byte) (t : BitVec 64) (d : BitVec 32) : State :=
  (((((State.reset.setKlen (some (lengthByte k))).setKey (loadedKey (lengthByte k) k)).setTime (some t)).setCand
    (some d)).setStage 1)

theorem holdsKey_startedState {k : List Byte} (t : BitVec 64) (d : BitVec 32) (hk : k.length ≤ 100) :
    HoldsKey (startedState k t d) k := by
  intro i _
  have hle : (lengthByte k).toNat ≤ 100 := by rw [lengthByte_toNat (by omega)]; exact hk
  exact (loadedKey_read _ _ _).trans (if_pos hle)

/-- The host's turn with the bytes of a well-formed command at the front of its stream. -/
theorem step_host_commandBytes {s u : State} {ts : List Turn} {i : Instr} {rest : List Byte}
    (hturns : s.turns = .host :: ts) (hhost : s.hostIn = commandBytes i ++ rest) (hwf : i.wf = true)
    (hf : i.format = .command) (hexec : exec i ((s.setTurns ts).setHostIn rest) = .next u) : step s = .next u := by
  have hdec := decodeCommand_commandBytes_append hwf hf rest
  rw [← hhost] at hdec
  rw [step_host hturns, ← hexec]
  exact hostStep_of_ok hdec

theorem runSteps_four_starts {k : List Byte} (t : BitVec 64) (d : BitVec 32) (hk : k.length ≤ 255) :
    runSteps 4 (State.reset.withScript [.totp k t d]) = .next ((startedState k t d).setTurns [.wait, .observe]) := by
  have hlen : k.length = (lengthByte k).toNat := (lengthByte_toNat hk).symm
  calc runSteps 4 (State.reset.withScript [.totp k t d])
    _ = runSteps 3 _ := runSteps_succ (step_host_commandBytes (i := ldkOf k) rfl rfl (wf_ldk_iff.2 hlen) rfl
        ((exec_ldk_eq_next hlen).2 (.inl ⟨rfl, rfl⟩)))
    _ = runSteps 2 _ := runSteps_succ (step_host_commandBytes (i := .ldt t) rfl rfl rfl rfl
        (exec_ldt_eq_next.2 (.inl ⟨rfl, rfl⟩)))
    _ = runSteps 1 _ := runSteps_succ (step_host_commandBytes (i := .ldc d) rfl rfl rfl rfl
        (exec_ldc_eq_next.2 (.inl ⟨rfl, rfl⟩)))
    _ = runSteps 0 _ := runSteps_succ (step_host_commandBytes (i := .go) rfl rfl rfl rfl
        (exec_go_eq_next.2 (.inl ⟨rfl, rfl, rfl⟩)))

theorem blockInvariant_startedState {k : List Byte} (t : BitVec 64) (d : BitVec 32) (hk : k.length ≤ 255) :
    BlockInvariant (startedState k t d) := by
  have hs : BlockInvariant ((startedState k t d).setTurns [.wait, .observe]) :=
    (resetMeetsInvariant _ _).of_runSteps (runSteps_four_starts t d hk)
  exact hs.setHostIn_setTurns [] []

/-- TOTP from reset: the loads and GO, the run from there, the end of the wait, and RD. -/
theorem runSteps_totp {k : List Byte} {t : BitVec 64} {d : BitVec 32} {n : Nat} {u : State} (hk : k.length ≤ 255)
    (hn : n ≤ 3 ∨ (1 ≤ k.length ∧ k.length ≤ 100 ∧ n ≤ 9)) (h : runSteps n (startedState k t d) = .next u)
    (hend : u.busy = false) : runSteps (4 + (n + 2)) (State.reset.withScript [.totp k t d]) = .next (u.setTurns []) := by
  rw [runSteps_add _ (runSteps_four_starts t d hk)]
  refine runSteps_setTurns_wait_observe rfl h (fun m hm => ?busy) hend
  case busy =>
    have hstage : (startedState k t d).stage.toNat = 1 := rfl
    have hlen := lengthByte_toNat hk
    have hs := blockInvariant_startedState t d hk
    obtain ⟨v, hv, -, -, hstage'⟩ := hs.exists_runSteps rfl hstage.ge (m := m) (by omega)
      (hn.imp (fun _ => by omega) fun _ => ⟨lengthByte k, rfl, by omega, by omega⟩)
    exact ⟨v, hv, State.busy_iff.2 ⟨by omega, by omega⟩⟩

/-- Settles O46: the run from the started state ends in DONE or FAIL, and the outputs are read off its last state. -/
theorem totpScriptFromReset : Obligations.TotpScriptFromReset := by
  intro k t d hk
  have hlen := lengthByte_toNat hk
  refine ⟨fun hmin hmax => ?good, fun hbad => ?bad⟩
  case good =>
    have hok : keyLengthOk (lengthByte k) = true := (keyLengthOk_iff _).2 ⟨by omega, by omega⟩
    obtain ⟨u, c, hrun, hdone, hcause, hcode, hc, hmatch⟩ := runSteps_nine_computes_code (s := startedState k t d)
      rfl rfl rfl rfl rfl hok hlen.symm (holdsKey_startedState t d hmax)
    have hs := blockInvariant_startedState t d hk
    obtain ⟨v, hv, ⟨hhost, -⟩, -, -⟩ := hs.exists_runSteps rfl (Nat.le_refl 1) (m := 9) (Nat.le_refl 10)
      (.inr ⟨lengthByte k, rfl, by omega, by omega⟩)
    cases hv.symm.trans hrun
    have hend : u.busy = false := by simp [State.busy, hdone]
    have houtputs := State.outputs_of_done (s := u.setTurns []) hdone
    rw [State.setTurns_matchFlag, State.setTurns_cause, State.setTurns_code, hmatch, hcause, hcode] at houtputs
    exact ⟨u.setTurns [], c, runSteps_totp hk (.inr ⟨hmin, hmax, Nat.le_refl 9⟩) hrun hend, hhost, rfl, houtputs, hc⟩
  case bad =>
    have hrun := runSteps_three_raises (s := startedState k t d) rfl rfl rfl rfl (by omega)
    exact ⟨_, runSteps_totp hk (.inl (Nat.le_refl 3)) hrun rfl, rfl, rfl, rfl⟩

end Sys2Proof.Machine
end

section
/-! What the functions of the stages depend on: the encoder on the time step, the digest on key and challenge, the code on
the window's low 31 bits (41_time_step_encoder.md R142; 43_hmac_wrapper.md R162; 45_dynamic_truncation.md R194). -/

namespace Sys2Proof.Machine

/-! ## The encoder -/

theorem timeCounter_congr {t t' : BitVec 64} (h : t.toNat / 30 = t'.toNat / 30) :
    timeCounter config t = timeCounter config t' :=
  BitVec.eq_of_toNat_eq (by rw [timeCounter_toNat, timeCounter_toNat, h])

/-- The challenge is the big-endian counter, so that it determines it. -/
theorem be_challengeBytes (v : BitVec 64) : be (challengeBytes v) = v.toNat := by
  rw [challengeBytes_eq, be_beBytes]
  exact Nat.mod_eq_of_lt v.isLt

/-- A counter is below 2^64 / 30, and so its first byte below 16. -/
theorem beByte64_timeCounter_zero_lt (t : BitVec 64) : (beByte64 (timeCounter config t) 0).toNat < 16 := by
  have ht := t.isLt
  rw [beByte64_eq, timeCounter_toNat, BitVec.toNat_ofNat]
  omega

/-- Settles O47, through the counter's value TIME div 30 and the challenge's, which is the counter. -/
theorem encoderProperties : Obligations.EncoderProperties := by
  refine ⟨fun t1 t2 h => ⟨?challenge, fun key => totpCode_congr_time key h⟩, fun t1 t2 h => ?monotone,
    fun v w h => ?injective, be_challengeBytes, fun t b hb => ?nibble⟩
  case challenge => rw [timeCounter_congr h]
  case monotone =>
    rw [timeCounter_toNat, timeCounter_toNat]
    exact Nat.div_le_div_right h
  case injective => exact BitVec.eq_of_toNat_eq (by rw [← be_challengeBytes v, h, be_challengeBytes w])
  case nibble =>
    rw [challengeBytes_getElem? _ (by decide)] at hb
    cases hb
    exact beByte64_timeCounter_zero_lt t

/-! ## The digest -/

/-- Settles O49: the reads from `t` answer what those from `s` do, and the digest covers DIG. -/
theorem digestDependsOnKeyAndChallenge : Obligations.DigestDependsOnKeyAndChallenge := by
  intro c s t u n hn hn' hkey hch h
  obtain ⟨m, key, msg, hm, hkeyRead, hmsgRead, rfl⟩ := execHmacWith_eq_next.1 h
  cases hn.symm.trans hm
  have hkeyRead' : t.memRead .key 0 n.toNat = .ok key := State.memRead_congr (by simpa using hkey) hkeyRead
  have hmsgRead' : t.memRead .ch 0 8 = .ok msg := State.memRead_congr (by simpa using hch) hmsgRead
  refine ⟨_, execHmacWith_eq_next.2 ⟨n, key, msg, hn', hkeyRead', hmsgRead', rfl⟩, fun i hi => ?_⟩
  simp only [State.readByte_setStage, State.readByte_setDig_dig, read_writeBytes_digest, if_pos hi, true_and]
  rw [List.getElem?_eq_getElem (by simpa using hi), Option.isSome_some]

/-! ## The code -/

theorem truncatedCode_le (dig : List Byte) : truncatedCode dig ≤ 999999 :=
  Nat.le_of_lt_succ (Nat.mod_lt _ (by decide))

/-- The window at `o`, byte by byte. -/
theorem take_four_drop {d : List Byte} {o : Nat} (h : o + 4 ≤ d.length) :
    (d.drop o).take 4 = [d.getD o 0, d.getD (o + 1) 0, d.getD (o + 2) 0, d.getD (o + 3) 0] := by
  refine List.ext_getElem (by simp; omega) fun i hi _ => ?_
  have hi4 : i < 4 := by rw [List.length_take] at hi; omega
  interval_cases i <;> simp [List.getD_eq_getElem?_getD, show o < d.length by omega, show o + 1 < d.length by omega,
    show o + 2 < d.length by omega, show o + 3 < d.length by omega]

/-- Bit 7 of the first of four bytes is bit 31 of their number. -/
theorem be_four_mod {b0 c0 b1 b2 b3 : Byte} (h : b0.toNat % 128 = c0.toNat % 128) :
    be [b0, b1, b2, b3] % 2 ^ 31 = be [c0, b1, b2, b3] % 2 ^ 31 := by
  rw [be_four, be_four]
  omega

/-- Settles O48: the pipeline's run computes the truncation, which sees of the digest the offset and the window's low 31
bits. -/
theorem truncationProperties : Obligations.TruncationProperties := by
  refine ⟨fun s dig hstage hturns hlen hdig => ?code, fun d e o hd he ho hod hoe h0 h1 h2 h3 => ?ignored,
    fun h => ?eight⟩
  case code =>
    obtain ⟨off, win, th, c, hrun, hc⟩ := runSteps_four_truncates hstage hturns hlen hdig
    exact ⟨_, c, hrun, rfl, rfl, hc, hc.trans_le (truncatedCode_le dig)⟩
  case ignored =>
    rw [truncatedCode, truncatedCode, hod, hoe, take_four_drop (by omega), take_four_drop (by omega), be_four_mod h0, h1, h2,
      h3]
  case eight =>
    rw [reduceCode_toNat]
    omega

end Sys2Proof.Machine
end

section
/-! The primitive: the padding, the message schedule and the padded key of HMAC-SHA1 (44_hmac_sha1_reference.md R171, R173,
R177, R178; log 6). -/

namespace Sys2Proof.Sha1

/-! ## Padding -/

theorem add_zeroCount_mod (L : Nat) : (L + 1 + zeroCount L) % 64 = 56 := by
  unfold zeroCount
  omega

theorem zeroCount_le {L z : Nat} (h : (L + 1 + z) % 64 = 56) : zeroCount L ≤ z := by
  unfold zeroCount
  omega

theorem length_pad (m : List Byte) : (pad m).length = m.length + 1 + zeroCount m.length + 8 := by
  simp only [pad, List.length_append, List.length_cons, List.length_replicate, beBytes_length]
  omega

/-- Settles O59: the count of zeros is the least, and the eight length bytes complete the last block. -/
theorem paddingIsLeast : Obligations.PaddingIsLeast := by
  intro m
  refine ⟨zeroCount m.length, rfl, add_zeroCount_mod _, fun z' => zeroCount_le, ?_⟩
  have hmod := add_zeroCount_mod m.length
  rw [length_pad]
  omega

/-! ## The padded key -/

theorem shortKey_of_le {k : List Byte} (h : k.length ≤ 64) : shortKey k = k := if_neg (Nat.not_lt_of_le h)

theorem shortKey_of_lt {k : List Byte} (h : 64 < k.length) : shortKey k = (sha1 k).toList := if_pos h

theorem length_shortKey_le (k : List Byte) : (shortKey k).length ≤ 64 := by
  by_cases hle : k.length ≤ 64
  · rwa [shortKey_of_le hle]
  · have hlt : 64 < k.length := Nat.lt_of_not_le hle
    rw [shortKey_of_lt hlt, Vector.length_toList]
    decide

theorem length_blockKey (k : List Byte) : (blockKey k).length = 64 := by
  rw [blockKey, List.length_append, List.length_replicate, Nat.add_sub_cancel' (length_shortKey_le k)]

/-- Settles O60, by the key's length. -/
theorem longKeysAreHashed : Obligations.LongKeysAreHashed := by
  refine fun k => ⟨length_blockKey k, fun hle => ?short, fun hlt => ?long⟩
  case short => rw [blockKey, shortKey_of_le hle]
  case long => rw [blockKey, shortKey_of_lt hlt, Vector.length_toList]

/-! ## The message schedule -/

theorem length_words : ∀ bs : List Byte, (words bs).length = bs.length / 4
  | [] | [_] | [_, _] | [_, _, _] => by simp [words]
  | _ :: _ :: _ :: _ :: bs => by
    simp only [words, List.length_cons, length_words bs]
    omega

/-- Word `t` is made of the four bytes from `4 * t` on. -/
theorem getD_words : ∀ {bs : List Byte} {t : Nat}, 4 * t + 3 < bs.length → (words bs).getD t 0 =
    beWord (bs.getD (4 * t) 0) (bs.getD (4 * t + 1) 0) (bs.getD (4 * t + 2) 0) (bs.getD (4 * t + 3) 0)
  | [], _, h | [_], _, h | [_, _], _, h | [_, _, _], _, h => by simp at h
  | _ :: _ :: _ :: _ :: _, 0, _ => rfl
  | _ :: _ :: _ :: _ :: bs, t + 1, h => by
    simp only [List.length_cons] at h
    exact getD_words (bs := bs) (by omega)

/-- The recurrence of R173 on a list of words with the last one first: every word that has sixteen after it is made of those
3, 8, 14 and 16 places on. -/
def FollowsRecurrence (w : List Word32) : Prop :=
  ∀ i, i + 16 < w.length → w.getD i 0 =
    rotl (w.getD (i + 3) 0 ^^^ w.getD (i + 8) 0 ^^^ w.getD (i + 14) 0 ^^^ w.getD (i + 16) 0) 1

theorem length_extend (n : Nat) (w : List Word32) : (extend n w).length = n + w.length := by
  induction n generalizing w with
  | zero => simp [extend]
  | succ n ih =>
    rw [extend, ih, List.length_cons]
    omega

/-- The words that the schedule started with stand behind the new ones. -/
theorem getD_extend_add (n : Nat) (w : List Word32) (i : Nat) : (extend n w).getD (n + i) 0 = w.getD i 0 := by
  induction n generalizing w i with
  | zero => simp [extend]
  | succ n ih =>
    rw [extend, Nat.add_assoc, ih, Nat.add_comm 1 i, List.getD_cons_succ]

theorem FollowsRecurrence.extend {w : List Word32} (hw : FollowsRecurrence w) (n : Nat) :
    FollowsRecurrence (extend n w) := by
  induction n generalizing w with
  | zero => exact hw
  | succ n ih =>
    refine ih fun i hi => ?_
    cases i with
    | zero => rfl
    | succ i => exact hw i (by rw [List.length_cons] at hi; omega)

theorem length_schedule {block : List Byte} (h : block.length = 64) : (schedule block).length = 80 := by
  rw [schedule, List.length_reverse, length_extend, List.length_reverse, length_words, h]

/-- Settles O58: read from its end, the schedule is the extension of the block's words, which follows the recurrence. -/
theorem messageScheduleRecurrence : Obligations.MessageScheduleRecurrence := by
  intro block hlen
  have hwords : (words block).length = 16 := by rw [length_words, hlen]
  have hextend : (extend 64 (words block).reverse).length = 80 := by
    rw [length_extend, List.length_reverse, hwords]
  have hget : ∀ t < 80, (schedule block).getD t 0 = (extend 64 (words block).reverse).getD (79 - t) 0 := by
    intro t ht
    rw [schedule, List.getD_reverse _ (by omega), hextend]
  refine ⟨length_schedule hlen, fun t ht => ?first, fun t h16 h80 => ?later⟩
  case first =>
    rw [hget t (by omega), show 79 - t = 64 + (15 - t) by omega, getD_extend_add, List.getD_reverse _ (by omega), hwords,
      show 16 - 1 - (15 - t) = t by omega, getD_words (by omega)]
  case later =>
    have hrec := FollowsRecurrence.extend (w := (words block).reverse)
      (fun i hi => by rw [List.length_reverse, hwords] at hi; omega) 64 (79 - t) (by omega)
    rw [hget t h80, hget (t - 3) (by omega), hget (t - 8) (by omega), hget (t - 14) (by omega), hget (t - 16) (by omega),
      hrec, show 79 - (t - 3) = 79 - t + 3 by omega, show 79 - (t - 8) = 79 - t + 8 by omega,
      show 79 - (t - 14) = 79 - t + 14 by omega, show 79 - (t - 16) = 79 - t + 16 by omega]

end Sys2Proof.Sha1
end
